-- ==== Sys2Proof/Word.lean ====
section
/-! DEFINITION. The word types of the machine: the widths XLEN, ALEN and ILEN of rule R5 and the operand
fields of rule R71. Every value is unsigned (R6). -/

namespace Sys2Proof

/-- A general register, a timer, a memory cell or the immediate `kk`: XLEN = 8 bits (R5, R20, R33, R71). -/
abbrev Byte := BitVec 8

/-- I, PC and each call-stack entry: ALEN = 16 bits (R5, R25, R26, R29). -/
abbrev Addr := BitVec 16

/-- One instruction word: ILEN = 16 bits (R5, R70). -/
abbrev Word := BitVec 16

/-- A register selector, the field `x` or `y`: index `i` names `V[i]`, VF is index 15 (R20, R71, R73). -/
abbrev RegNo := BitVec 4

/-- The trailing nibble `n`; in draw an unsigned row count 0 to 15 (R71, R73). -/
abbrev Nibble := BitVec 4

/-- The 12-bit address operand `nnn` (R71, R73). -/
abbrev Addr12 := BitVec 12

end Sys2Proof
end

