-- ==== Sys2Proof/Config.lean ====
section
/-! DEFINITION. The implementation parameters of rule R5 at the value this hardware takes, and the two free
values the spec leaves open (R155 and D13, D17). The types of Word.lean, of State and of the framebuffer have the sizes
named here (Laws/Config.lean). -/

namespace Sys2Proof

/-- How clear-display and return are recognised in group 0: the parameter GROUP0_MATCH and its
alternatives (R5, R76, D3, U1). -/
inductive Config.Group0Match where
  /-- compare the whole word -/
  | exact
  /-- compare `kk` only: 16 words each -/
  | lowByte
  /-- compare `n` only: 256 words each -/
  | lowNibble
  deriving DecidableEq, Repr

/-- What draw does with coordinates beyond the screen: the parameter DRAW_POLICY (R5, R175). The spec writes
down one policy and uses no other (C2). -/
inductive Config.DrawPolicy where
  /-- wrap each pixel on its own -/
  | wrapPixel
  deriving DecidableEq, Repr

/-- MEM_SIZE: bytes of memory (R5, R50). -/
abbrev Config.memSize : Nat := 4096

/-- LOAD_OFFSET: where program images go, and the reset value of PC (R5, R41). -/
abbrev Config.loadOffset : Nat := 0x200

/-- NREGS: the number of general registers (R5, R20). -/
abbrev Config.nregs : Nat := 16

/-- XLEN: the width in bits of each general register and of each timer, the width of `Byte` (R5, R20, R30). -/
abbrev Config.xlen : Nat := 8

/-- ALEN: the width in bits of I, of PC and of each call-stack entry, the width of `Addr` (R5, R25, R26, R29). -/
abbrev Config.alen : Nat := 16

/-- ILEN: the width in bits of every instruction word, the width of `Word` (R5, R70). -/
abbrev Config.ilen : Nat := 16

/-- FB_W: framebuffer columns (R5, R32). -/
abbrev Config.fbW : Nat := 64

/-- FB_H: framebuffer rows (R5, R32). -/
abbrev Config.fbH : Nat := 32

/-- FLAG_REG: the register that doubles as the flag register, VF (R5, R21). -/
abbrev Config.flagReg : RegNo := 15#4

/-- STACK_DEPTH: the most entries the call stack holds (R5, R29, decision D5; UNVERIFIED, log entry 13). -/
abbrev Config.stackDepth : Nat := 16

/-- GROUP0_MATCH (R5, R76, decision D3; UNVERIFIED, log entry 11). -/
def Config.group0Match : Config.Group0Match := .exact

/-- DRAW_POLICY (R5, R175, decision D6; UNVERIFIED, log entry 14). -/
def Config.drawPolicy : Config.DrawPolicy := .wrapPixel

/-- TIMER_RATE, in ticks a second: a convention of the outside on which no rule depends (R5, R202). -/
abbrev Config.timerRate : Nat := 60

/-- FREE VALUE: the random byte of draw number `k` (R152, R155, D13, U8). It has no body, so a theorem holds for
every sequence of bytes (log entry 3). -/
opaque Config.randomByte : Nat → Byte

/-- FREE VALUE: TIMER_TICK_AT_ZERO, what a timer that is 0 holds after a tick (R202, D17, U13; log entry 23). -/
opaque Config.timerTickAtZero : Byte

end Sys2Proof
end

