-- ==== Sys2Proof/Syntax.lean ====
section
/-! DEFINITION. The instruction set: one constructor per row of spec/opcode_table.json, in the table's order
(R2, R75). A constructor carries the fields its format names (R72); bits that decode ignores are no operand. -/

namespace Sys2Proof

/-- The 23 instructions of the block. -/
inductive Instr where
  /-- `00E0` clear-display (R170) -/
  | clearDisplay
  /-- `00EE` return (R120) -/
  | ret
  /-- `1nnn` jump (R121) -/
  | jump (nnn : Addr12)
  /-- `2nnn` call (R122) -/
  | call (nnn : Addr12)
  /-- `3xkk` skip-eq-imm (R123) -/
  | skipEqImm (x : RegNo) (kk : Byte)
  /-- `4xkk` skip-neq-imm (R124) -/
  | skipNeqImm (x : RegNo) (kk : Byte)
  /-- `5xy-` skip-eq-reg, trailing nibble ignored (R125, R78) -/
  | skipEqReg (x y : RegNo)
  /-- `6xkk` load-imm (R140) -/
  | loadImm (x : RegNo) (kk : Byte)
  /-- `7xkk` add-imm (R141) -/
  | addImm (x : RegNo) (kk : Byte)
  /-- `8xy0` load-reg (R142) -/
  | loadReg (x y : RegNo)
  /-- `8xy1` or (R143) -/
  | orReg (x y : RegNo)
  /-- `8xy2` and (R144) -/
  | andReg (x y : RegNo)
  /-- `8xy3` xor (R145) -/
  | xorReg (x y : RegNo)
  /-- `8xy4` add-reg (R146) -/
  | addReg (x y : RegNo)
  /-- `8xy5` sub-reg (R147) -/
  | subReg (x y : RegNo)
  /-- `8x-6` shift-right, `y` ignored (R148, R79) -/
  | shiftRight (x : RegNo)
  /-- `8xy7` subn-reg (R149) -/
  | subnReg (x y : RegNo)
  /-- `8x-E` shift-left, `y` ignored (R150, R79) -/
  | shiftLeft (x : RegNo)
  /-- `9xy-` skip-neq-reg, trailing nibble ignored (R126, R78) -/
  | skipNeqReg (x y : RegNo)
  /-- `Annn` load-index (R151) -/
  | loadIndex (nnn : Addr12)
  /-- `Bnnn` jump-offset (R127) -/
  | jumpOffset (nnn : Addr12)
  /-- `Cxkk` random (R152) -/
  | random (x : RegNo) (kk : Byte)
  /-- `Dxyn` draw (R172) -/
  | draw (x y : RegNo) (n : Nibble)
  deriving DecidableEq, Repr

/-- The mnemonic of an instruction, the operation name the spec's table and assembler use (R75, R86). -/
def Instr.mnemonic : Instr → String
  | .clearDisplay => "clear-display"
  | .ret => "return"
  | .jump _ => "jump"
  | .call _ => "call"
  | .skipEqImm _ _ => "skip-eq-imm"
  | .skipNeqImm _ _ => "skip-neq-imm"
  | .skipEqReg _ _ => "skip-eq-reg"
  | .loadImm _ _ => "load-imm"
  | .addImm _ _ => "add-imm"
  | .loadReg _ _ => "load-reg"
  | .orReg _ _ => "or"
  | .andReg _ _ => "and"
  | .xorReg _ _ => "xor"
  | .addReg _ _ => "add-reg"
  | .subReg _ _ => "sub-reg"
  | .shiftRight _ => "shift-right"
  | .subnReg _ _ => "subn-reg"
  | .shiftLeft _ => "shift-left"
  | .skipNeqReg _ _ => "skip-neq-reg"
  | .loadIndex _ => "load-index"
  | .jumpOffset _ => "jump-offset"
  | .random _ _ => "random"
  | .draw _ _ _ => "draw"

end Sys2Proof
end

