-- ==== Sys2Proof/Decode.lean ====
section
/-! DEFINITION. Decoding and encoding (30_encoding.md): the fields of a word (R71), the dispatch (R74 to R80,
R102), the rejection of every unsupported word by name (R83), the byte order (R52, R70), an encoder, and the
opcode map as data (R75). The opcode numbers are PRESUMED: the spec supplies them from general knowledge of
CHIP-8 (R88, D1; log entry 10). -/

namespace Sys2Proof

/-! The fields of a word (R71). All six are taken from every word; they overlap. -/

/-- `group = w[15:12]` -/
def fieldGroup (w : Word) : Nibble := w.extractLsb' 12 4

/-- `x = w[11:8]` (the order of the two selectors is the conventional one, D2) -/
def fieldX (w : Word) : RegNo := w.extractLsb' 8 4

/-- `y = w[7:4]` -/
def fieldY (w : Word) : RegNo := w.extractLsb' 4 4

/-- `n = w[3:0]` -/
def fieldN (w : Word) : Nibble := w.extractLsb' 0 4

/-- `kk = w[7:0]` -/
def fieldKK (w : Word) : Byte := w.extractLsb' 0 8

/-- `nnn = w[11:0]` -/
def fieldNNN (w : Word) : Addr12 := w.extractLsb' 0 12

/-! Byte order (R52, R70): the byte at the lower address is the high byte of the word. -/

/-- The word of two bytes, high byte first (R52). -/
def wordOfBytes (hi lo : Byte) : Word := hi ++ lo

/-- Bits 15 to 8 of a word, the byte stored at the lower address (R52). -/
def wordHigh (w : Word) : Byte := w.extractLsb' 8 8

/-- Bits 7 to 0 of a word, the byte stored at the higher address (R52). -/
def wordLow (w : Word) : Byte := w.extractLsb' 0 8

/-! Dispatch (R74, R102). -/

/-- Group 0 under a choice of GROUP0_MATCH: clear-display, return or nothing (R76, D3, U1). -/
def selectGroup0 (m : Config.Group0Match) (w : Word) : Option Instr :=
  match m with
  | .exact => if w = 0x00E0#16 then some .clearDisplay else if w = 0x00EE#16 then some .ret else none
  | .lowByte =>
    if fieldKK w = 0xE0#8 then some .clearDisplay else if fieldKK w = 0xEE#8 then some .ret else none
  | .lowNibble =>
    if fieldN w = 0x0#4 then some .clearDisplay else if fieldN w = 0xE#4 then some .ret else none

/-- Group 8: the secondary dispatch on the trailing nibble (R77). -/
def selectGroup8 (w : Word) : Option Instr :=
  match fieldN w with
  | 0x0#4 => some (.loadReg (fieldX w) (fieldY w))
  | 0x1#4 => some (.orReg (fieldX w) (fieldY w))
  | 0x2#4 => some (.andReg (fieldX w) (fieldY w))
  | 0x3#4 => some (.xorReg (fieldX w) (fieldY w))
  | 0x4#4 => some (.addReg (fieldX w) (fieldY w))
  | 0x5#4 => some (.subReg (fieldX w) (fieldY w))
  | 0x6#4 => some (.shiftRight (fieldX w))
  | 0x7#4 => some (.subnReg (fieldX w) (fieldY w))
  | 0xE#4 => some (.shiftLeft (fieldX w))
  | _ => none

/-- The instruction a word selects, or none: the `case group of` of EXECUTE (R74, R76 to R80, R102). -/
def selectInstr (w : Word) : Option Instr :=
  match fieldGroup w with
  | 0x0#4 => selectGroup0 Config.group0Match w
  | 0x1#4 => some (.jump (fieldNNN w))
  | 0x2#4 => some (.call (fieldNNN w))
  | 0x3#4 => some (.skipEqImm (fieldX w) (fieldKK w))
  | 0x4#4 => some (.skipNeqImm (fieldX w) (fieldKK w))
  | 0x5#4 => some (.skipEqReg (fieldX w) (fieldY w))
  | 0x6#4 => some (.loadImm (fieldX w) (fieldKK w))
  | 0x7#4 => some (.addImm (fieldX w) (fieldKK w))
  | 0x8#4 => selectGroup8 w
  | 0x9#4 => some (.skipNeqReg (fieldX w) (fieldY w))
  | 0xA#4 => some (.loadIndex (fieldNNN w))
  | 0xB#4 => some (.jumpOffset (fieldNNN w))
  | 0xC#4 => some (.random (fieldX w) (fieldKK w))
  | 0xD#4 => some (.draw (fieldX w) (fieldY w) (fieldN w))
  | _ => none

/-- Why bytes decode to no instruction. -/
inductive DecodeError where
  /-- the word selects no instruction; carries the raw word (R83, R186) -/
  | unsupportedOpcode (w : Word)
  /-- fewer than the two bytes an instruction has (R70) -/
  | truncated
  deriving DecidableEq, Repr

/-- Decode one word: an instruction, or the rejection that names the word (R81, R83). -/
def decode (w : Word) : Except DecodeError Instr :=
  match selectInstr w with
  | some i => .ok i
  | none => .error (.unsupportedOpcode w)

/-- Decode the bytes of an instruction stream: the instruction and the bytes after it (R52, R70). -/
def decodeBytes : List Byte → Except DecodeError (Instr × List Byte)
  | hi :: lo :: rest =>
    match decode (wordOfBytes hi lo) with
    | .ok i => .ok (i, rest)
    | .error e => .error e
  | _ => .error .truncated

/-- The instruction the decoder reads from a row's bits as spec/opcode_table.json numbers them: bit 0 is the
least significant bit of the one instruction word, bits from `nbits` up are 0, and the word is laid out high
byte first (R52, R70). -/
def decodeTableWord (nbits w : Nat) : Option Instr :=
  let word : Word := BitVec.ofNat 16 (w % 2 ^ nbits)
  match decodeBytes [wordHigh word, wordLow word] with
  | .ok (i, _) => some i
  | .error _ => none

/-! Encoding: the canonical word of an instruction, ignored bits 0 (R75, R78, R79, R86), in the formats of R72. -/

/-- Format A: `gggg nnnnnnnnnnnn` (R72). -/
def packA (g : Nibble) (nnn : Addr12) : Word := g ++ nnn

/-- Format XK: `gggg xxxx kkkkkkkk` (R72). -/
def packXK (g : Nibble) (x : RegNo) (kk : Byte) : Word := g ++ x ++ kk

/-- Formats XY and XYN: `gggg xxxx yyyy nnnn`, the trailing nibble a function selector or a row count (R72). -/
def packXYN (g : Nibble) (x y : RegNo) (n : Nibble) : Word := g ++ x ++ y ++ n

/-- The canonical word of an instruction (R75, R86). -/
def encode : Instr → Word
  | .clearDisplay => 0x00E0#16
  | .ret => 0x00EE#16
  | .jump nnn => packA 0x1#4 nnn
  | .call nnn => packA 0x2#4 nnn
  | .skipEqImm x kk => packXK 0x3#4 x kk
  | .skipNeqImm x kk => packXK 0x4#4 x kk
  | .skipEqReg x y => packXYN 0x5#4 x y 0x0#4
  | .loadImm x kk => packXK 0x6#4 x kk
  | .addImm x kk => packXK 0x7#4 x kk
  | .loadReg x y => packXYN 0x8#4 x y 0x0#4
  | .orReg x y => packXYN 0x8#4 x y 0x1#4
  | .andReg x y => packXYN 0x8#4 x y 0x2#4
  | .xorReg x y => packXYN 0x8#4 x y 0x3#4
  | .addReg x y => packXYN 0x8#4 x y 0x4#4
  | .subReg x y => packXYN 0x8#4 x y 0x5#4
  | .shiftRight x => packXYN 0x8#4 x 0x0#4 0x6#4
  | .subnReg x y => packXYN 0x8#4 x y 0x7#4
  | .shiftLeft x => packXYN 0x8#4 x 0x0#4 0xE#4
  | .skipNeqReg x y => packXYN 0x9#4 x y 0x0#4
  | .loadIndex nnn => packA 0xA#4 nnn
  | .jumpOffset nnn => packA 0xB#4 nnn
  | .random x kk => packXK 0xC#4 x kk
  | .draw x y n => packXYN 0xD#4 x y n

/-- The canonical word as it is stored, high byte first (R52, R65). -/
def encodeBytes (i : Instr) : List Byte := [wordHigh (encode i), wordLow (encode i)]

/-- The bits of an instruction's word that decode looks at: all but the trailing nibble of groups 5 and 9 and
the `y` field of the shifts (R72, R78, R79). -/
def significantBits : Instr → Word
  | .skipEqReg _ _ | .skipNeqReg _ _ => 0xFFF0#16
  | .shiftRight _ | .shiftLeft _ => 0xFF0F#16
  | .clearDisplay | .ret | .jump _ | .call _ | .skipEqImm _ _ | .skipNeqImm _ _ | .loadImm _ _ | .addImm _ _
  | .loadReg _ _ | .orReg _ _ | .andReg _ _ | .xorReg _ _ | .addReg _ _ | .subReg _ _ | .subnReg _ _
  | .loadIndex _ | .jumpOffset _ | .random _ _ | .draw _ _ _ => 0xFFFF#16

/-! The opcode map as data (R75). -/

/-- One row of the opcode map: a word `w` selects the row when `w AND mask = pattern` (R75). -/
structure OpcodeRow where
  mnemonic : String
  mask : Word
  pattern : Word
  deriving DecidableEq, Repr

/-- The 23 rows of rule R75, in its order. -/
def opcodeMap : List OpcodeRow :=
  [⟨"clear-display", 0xFFFF#16, 0x00E0#16⟩, ⟨"return", 0xFFFF#16, 0x00EE#16⟩, ⟨"jump", 0xF000#16, 0x1000#16⟩,
   ⟨"call", 0xF000#16, 0x2000#16⟩, ⟨"skip-eq-imm", 0xF000#16, 0x3000#16⟩, ⟨"skip-neq-imm", 0xF000#16, 0x4000#16⟩,
   ⟨"skip-eq-reg", 0xF000#16, 0x5000#16⟩, ⟨"load-imm", 0xF000#16, 0x6000#16⟩, ⟨"add-imm", 0xF000#16, 0x7000#16⟩] ++
  [⟨"load-reg", 0xF00F#16, 0x8000#16⟩, ⟨"or", 0xF00F#16, 0x8001#16⟩, ⟨"and", 0xF00F#16, 0x8002#16⟩,
   ⟨"xor", 0xF00F#16, 0x8003#16⟩, ⟨"add-reg", 0xF00F#16, 0x8004#16⟩, ⟨"sub-reg", 0xF00F#16, 0x8005#16⟩,
   ⟨"shift-right", 0xF00F#16, 0x8006#16⟩, ⟨"subn-reg", 0xF00F#16, 0x8007#16⟩, ⟨"shift-left", 0xF00F#16, 0x800E#16⟩] ++
  [⟨"skip-neq-reg", 0xF000#16, 0x9000#16⟩, ⟨"load-index", 0xF000#16, 0xA000#16⟩, ⟨"jump-offset", 0xF000#16, 0xB000#16⟩,
   ⟨"random", 0xF000#16, 0xC000#16⟩, ⟨"draw", 0xF000#16, 0xD000#16⟩]

/-- The word selects the row (R75). -/
def OpcodeRow.selects (r : OpcodeRow) (w : Word) : Bool := w &&& r.mask == r.pattern

end Sys2Proof
end

