-- ==== Sys2Proof/Machine/State.lean ====
section
/-! DEFINITION. The state of the machine (10_state.md), the errors and outcomes a cycle reports (R105, R185),
the model's own ways to stop, and the state after reset (R41, R220). -/

namespace Sys2Proof.Machine

/-- The closed set of four error kinds with the payloads of rule R185. An error is no stop: it is reported and
the machine goes on (R106, R187, R200). -/
inductive MachineError where
  /-- the word selects no instruction; carries the raw word (R83, R186) -/
  | unsupportedOpcode (w : Word)
  /-- a fetch, a sprite read of draw or the target of jump-offset lies beyond address 0xFFF (R188) -/
  | outOfBounds (addr : Nat)
  /-- a return with an empty call stack (R189) -/
  | stackUnderflow
  /-- a call with a full call stack (R190) -/
  | stackOverflow
  deriving DecidableEq, Repr

/-- What one cycle hands to the driver: the three outcomes of rule R105. -/
inductive CycleResult where
  /-- the instruction was executed completely -/
  | ok
  /-- FETCH raised: nothing changed (R101) -/
  | fetchErr (e : MachineError)
  /-- EXECUTE raised: the fetch advanced PC and nothing else changed (R103) -/
  | execErr (e : MachineError)
  deriving DecidableEq, Repr

/-- The 64 by 32 one-bit pixels: bit `k` is the cell `FB[k]`, column `k mod 64` of row `k div 64` (R32; log
entry 6). -/
abbrev Framebuffer := BitVec 2048

/-- Memory: (address, byte) pairs, addresses strictly rising and below MEM_SIZE, no byte 0; an unlisted address
reads 0x00, the reset contents (R33, R41, R50, R226; log entry 7). -/
abbrev Memory := List Host.Cell

/-- All the state the spec gives the machine (10_state.md), and the model's own two fields. -/
structure State where
  /-- V0 to VF (R20, R21) -/
  v : Vector Byte 16
  /-- the index register I (R25) -/
  index : Addr
  /-- the program counter (R26) -/
  pc : Addr
  /-- the valid entries of the call stack, newest first; its length is `sp` (R29; log entry 4) -/
  stack : List Addr
  /-- the delay timer DT (R30) -/
  dt : Byte
  /-- the sound timer ST (R30) -/
  st : Byte
  /-- the framebuffer FB (R32) -/
  fb : Framebuffer
  /-- the memory M (R33) -/
  mem : Memory
  /-- MODEL'S OWN: how many random bytes have been drawn (R155; log entry 3) -/
  draws : Nat
  /-- MODEL'S OWN: what the last cycle handed to the driver; nothing reads it (R105, R195; log entry 2) -/
  report : Option CycleResult
  deriving DecidableEq, Repr

/-- Faults: none. The spec has no stop: an access outside memory, an unsupported word, a stack underflow or
overflow are errors after which the machine goes on (R106, R107, R187, R200), and so next states here (log
entry 1). No step raises a fault. -/
inductive Fault where
  deriving DecidableEq, Repr

/-- Refusals. -/
inductive Refusal where
  /-- raised by `exec` for an instruction that has no meaning yet; safe. No arm of `exec` does so now. -/
  | notModelled (mnemonic : String)
  deriving DecidableEq, Repr

/-- The machine right after RESET: "resets every field to zero except PC, which is set to the load offset"
(R41, R220). The model's own fields start at 0 draws and no report (DESIGN CHOICE, log entries 2 and 3). -/
def State.reset : State where
  v := Vector.replicate 16 0#8
  index := 0#16
  pc := BitVec.ofNat 16 Config.loadOffset
  stack := []
  dt := 0#8
  st := 0#8
  fb := 0#2048
  mem := []
  draws := 0
  report := none

end Sys2Proof.Machine
end

