-- ==== Sys2Proof/Machine/Ops.lean ====
section
/-! DEFINITION. The named operations over state that every meaning is built from: the primitives of rule R7,
memory (20_memory.md), registers, the call stack (R29), the framebuffer cells (R32), the end of EXECUTE and the
raising of an error (R103, R187), and FETCH (R100). -/

namespace Sys2Proof.Machine

/-- What EXECUTE answers. -/
abbrev Answer := Host.Outcome State Fault Refusal

/-! ## Memory -/

/-- The byte at an address; an unlisted address reads 0x00 (R41, R226). -/
def Memory.read : Memory → Nat → Byte
  | [], _ => 0#8
  | (a, b) :: rest, k => if a = k then b else Memory.read rest k

/-- Store a byte, keeping the canonical form: the value an unlisted address reads as is not listed. -/
def Memory.write : Memory → Nat → Byte → Memory
  | [], k, b => if b = 0#8 then [] else [(k, b)]
  | (a, c) :: rest, k, b =>
    if k < a then (if b = 0#8 then (a, c) :: rest else (k, b) :: (a, c) :: rest)
    else if k = a then (if b = 0#8 then rest else (k, b) :: rest)
    else (a, c) :: Memory.write rest k b

/-- The canonical form from address `lo` on: addresses rise strictly, lie in memory, and no byte is 0. -/
def Memory.wfFrom (lo : Nat) : Memory → Bool
  | [] => true
  | (a, b) :: rest => lo ≤ a && a < Config.memSize && b ≠ 0#8 && Memory.wfFrom (a + 1) rest

/-- The canonical form of memory (R33, R50). -/
def Memory.wf (m : Memory) : Bool := Memory.wfFrom 0 m

/-- `M[a]`. -/
def State.byteAt (s : State) (a : Nat) : Byte := Memory.read s.mem a

/-- `MemRead(addr, 1)`: `addr` is a natural number, never reduced; beyond memory it raises (R7, R51). -/
def State.memRead1 (s : State) (addr : Nat) : Except MachineError Byte :=
  if addr + 1 - 1 > Config.memSize - 1 then .error (.outOfBounds addr) else .ok (s.byteAt addr)

/-- `MemRead(addr, 2)`: big-endian, and it raises if either byte is beyond memory (R7, R51, R52). -/
def State.memRead2 (s : State) (addr : Nat) : Except MachineError Word :=
  if addr + 2 - 1 > Config.memSize - 1 then .error (.outOfBounds addr)
  else .ok (wordOfBytes (s.byteAt addr) (s.byteAt (addr + 1)))

/-! ## One update per field -/

/-- Replace I. -/
def State.setIndex (s : State) (a : Addr) : State := { s with index := a }

/-- Replace PC. -/
def State.setPc (s : State) (a : Addr) : State := { s with pc := a }

/-- Replace the call stack. -/
def State.setStack (s : State) (l : List Addr) : State := { s with stack := l }

/-- Replace DT. -/
def State.setDt (s : State) (b : Byte) : State := { s with dt := b }

/-- Replace ST. -/
def State.setSt (s : State) (b : Byte) : State := { s with st := b }

/-- Replace the framebuffer. -/
def State.setFb (s : State) (f : Framebuffer) : State := { s with fb := f }

/-- Replace memory. -/
def State.setMem (s : State) (m : Memory) : State := { s with mem := m }

/-- Replace the count of drawn random bytes. -/
def State.setDraws (s : State) (k : Nat) : State := { s with draws := k }

/-- Replace what the driver is handed. -/
def State.setReport (s : State) (r : Option CycleResult) : State := { s with report := r }

/-! ## General registers (R7, R20) -/

/-- `V[x]`: every selector names a register and none is hardwired (R20). -/
def State.readV (s : State) (x : RegNo) : Byte := s.v[x.toNat]

/-- `V[x] <- b`. -/
def State.writeV (s : State) (x : RegNo) (b : Byte) : State := { s with v := s.v.set x.toNat b }

/-! ## Call stack (R7, R29) -/

/-- `sp`: the number of entries on the call stack (R29). -/
def State.sp (s : State) : Nat := s.stack.length

/-- `stack[i]` for `i < sp`: entry 0 is the oldest, entry `sp - 1` the newest (R29). -/
def State.stackCell (s : State) (i : Nat) : Option Addr := s.stack.reverse[i]?

/-- `Push(v)`: raises StackOverflow at full depth (R7, R122, R190). In every state a run reaches `sp` is at most
STACK_DEPTH, so the test `sp = STACK_DEPTH` of the rule is this one (log entry 5). -/
def State.push (s : State) (a : Addr) : Except MachineError State :=
  if Config.stackDepth ≤ s.sp then .error .stackOverflow else .ok (s.setStack (a :: s.stack))

/-- `Pop()`: raises StackUnderflow on an empty stack; else the newest entry and the shorter stack (R7, R120). -/
def State.pop (s : State) : Except MachineError (Addr × State) :=
  match s.stack with
  | [] => .error .stackUnderflow
  | a :: rest => .ok (a, s.setStack rest)

/-! ## Framebuffer cells (R7, R32) -/

/-- `FB[k]`. -/
def pixelAt (f : Framebuffer) (k : Nat) : Bool := f.getLsbD k

/-- `FB[k] <- FB[k] XOR 1`. -/
def togglePixel (f : Framebuffer) (k : Nat) : Framebuffer := f ^^^ BitVec.twoPow 2048 k

/-! ## Random bytes (R7, R155) -/

/-- `Rnd()`: the byte of the next draw, a free value, and the state in which it has been drawn (log entry 3). -/
def State.drawRandom (s : State) : Byte × State := (Config.randomByte s.draws, s.setDraws (s.draws + 1))

/-! ## The end of EXECUTE, and errors -/

/-- EXECUTE returns `Ok` (R102). -/
def finish (s : State) : Answer := .next (s.setReport (some .ok))

/-- EXECUTE raises: "An error saves nothing, changes no mode, masks nothing, pushes nothing and jumps nowhere";
the kind is the return value of the phase and the state of EXECUTE's start stays, PC advanced by the fetch (R103,
R187). There is no return from an error: the next cycle simply runs (R194). -/
def raise (e : MachineError) (s : State) : Answer := .next (s.setReport (some (.execErr e)))

/-- FETCH raises: the state is exactly the one before the cycle (R101, R187; D10, log entry 18). -/
def raiseFetch (e : MachineError) (s : State) : Answer := .next (s.setReport (some (.fetchErr e)))

/-- EXECUTE of a word that selects no instruction (R83, R102). -/
def raiseUnsupported (w : Word) (s : State) : Answer := raise (.unsupportedOpcode w) s

/-! ## Program counter -/

/-- `pc + 2`, the address of the next word (R26). No cycle computes it from a PC above 0x1000 (R28); a 16-bit
wrap is possible only outside every run (log entry 8). -/
def State.nextPc (s : State) : Addr := s.pc + 2#16

/-- A skip: when the condition holds PC moves past the next word; else nothing changes (R104, R128). -/
def skipIf (c : Bool) (s : State) : Answer := finish (if c then s.setPc s.nextPc else s)

/-- FETCH: the word at PC, big-endian, and the state with PC advanced by 2, or OutOfBounds(pc) (R100). -/
def State.fetch (s : State) : Except MachineError (Word × State) :=
  match s.memRead2 s.pc.toNat with
  | .error e => .error e
  | .ok w => .ok (w, s.setPc s.nextPc)

end Sys2Proof.Machine
end

