-- ==== Sys2Proof/Machine/Flags.lean ====
section
/-! DEFINITION. The arithmetic of 8-bit unsigned registers (R153) and every flag computation (R24): each flag is
computed from the values before the instruction, and VF is written after the result (R22, R154). -/

namespace Sys2Proof.Machine

/-- A flag as the byte VF receives: 0x01 or 0x00 (R21). -/
def flagByte (b : Bool) : Byte := if b then 1#8 else 0#8

/-- `(a + b) mod 256` (R153). -/
def addBytes (a b : Byte) : Byte := BitVec.ofNat 8 (a.toNat + b.toNat)

/-- `(a - b) mod 256`, the representative from 0 to 255 (R153). -/
def subBytes (a b : Byte) : Byte := BitVec.ofInt 8 ((a.toNat : Int) - (b.toNat : Int))

/-- `a >> 1`: `a` divided by 2, rounded down; bit 7 is 0 (R148, R153). -/
def shiftRightByte (a : Byte) : Byte := a >>> 1

/-- `(a * 2) mod 256`: bit 0 is 0 and bit 7 is dropped (R150, R153). -/
def shiftLeftByte (a : Byte) : Byte := a <<< 1

/-- The carry of `a + b`: the sum exceeds 255 (R146, R153). -/
def carry (a b : Byte) : Bool := a.toNat + b.toNat > 255

/-- No borrow in `a - b`: `a >= b` as unsigned numbers (R147, R149, R153). -/
def noBorrow (a b : Byte) : Bool := b.toNat ≤ a.toNat

/-- Bit 0, which a right shift drops (R148). -/
def bitZero (a : Byte) : Bool := a.getLsbD 0

/-- Bit 7, which a left shift drops (R150). -/
def bitSeven (a : Byte) : Bool := a.getLsbD 7

/-- Write VF as a flag (R21, R24). -/
def State.writeFlag (s : State) (f : Bool) : State := s.writeV Config.flagReg (flagByte f)

/-- The flag-write template: the result to `V[x]` first, the flag to VF second, so that with `x = 15` the flag
stays and the result is lost (R22, R154). -/
def State.writeResultFlag (s : State) (x : RegNo) (result : Byte) (flag : Bool) : State :=
  (s.writeV x result).writeFlag flag

end Sys2Proof.Machine
end

