-- ==== Sys2Proof/Machine/Operands.lean ====
section
/-! DEFINITION. The operand forms of the 23 instructions (R71 to R73): an immediate byte is used as it stands, a
selector through `State.readV`; here stand the address operand, the offset target, and the sprite of draw. -/

namespace Sys2Proof.Machine

/-- `zext_16(nnn)`: the address operand as it is loaded into PC or I (R73, R121, R151). -/
def zextAddress (nnn : Addr12) : Addr := nnn.setWidth 16

/-- `nnn + V[0]`, a natural number from 0 to 0x10FE (R127). -/
def State.offsetTarget (s : State) (nnn : Addr12) : Nat := nnn.toNat + (s.readV 0#4).toNat

/-- `I + row`, the address of a sprite row: a natural number, never masked (R25, R66, D20). -/
def State.spriteAddress (s : State) (row : Nat) : Nat := s.index.toNat + row

/-- The sprite reaches beyond memory: `n > 0` and `I + n - 1 > 0xFFF` (R172). -/
def State.spriteOutside (s : State) (n : Nat) : Bool := n > 0 && s.spriteAddress (n - 1) > Config.memSize - 1

/-- The `n` bytes of a sprite, row 0 first (R171). -/
def State.spriteBytes (s : State) (n : Nat) : List Byte := (List.range n).map fun row => s.byteAt (s.spriteAddress row)

/-- Sprite column `col` of a row's byte: bit `7 - col`, most significant first (R53, R171). -/
def spriteBit (b : Byte) (col : Nat) : Bool := b.getLsbD (7 - col)

/-- The framebuffer cell of sprite pixel (row, col) at (vx, vy) under DRAW_POLICY: each pixel wraps on its own
(R172, R175; D6, log entry 14). -/
def pixelCell (vx vy row col : Nat) : Nat :=
  match Config.drawPolicy with
  | .wrapPixel => ((vy + row) % Config.fbH) * Config.fbW + (vx + col) % Config.fbW

end Sys2Proof.Machine
end

