-- ==== Sys2Proof/Machine/Alu.lean ====
section
/-! DEFINITION. The register load, arithmetic, logic, shift, index and random instructions (42_load_and_alu.md).
None changes PC, memory, the stack, the timers or the framebuffer, and none raises. -/

namespace Sys2Proof.Machine

/-- load-imm: `V[x] <- kk` (R140). -/
def execLoadImm (x : RegNo) (kk : Byte) (s : State) : Answer := finish (s.writeV x kk)

/-- add-imm: `V[x] <- (V[x] + kk) mod 256`, no flag (R141). -/
def execAddImm (x : RegNo) (kk : Byte) (s : State) : Answer := finish (s.writeV x (addBytes (s.readV x) kk))

/-- load-reg: `V[x] <- V[y]` (R142). -/
def execLoadReg (x y : RegNo) (s : State) : Answer := finish (s.writeV x (s.readV y))

/-- or: `V[x] <- V[x] OR V[y]`, no flag (R143). -/
def execOr (x y : RegNo) (s : State) : Answer := finish (s.writeV x (s.readV x ||| s.readV y))

/-- and: `V[x] <- V[x] AND V[y]`, no flag (R144). -/
def execAnd (x y : RegNo) (s : State) : Answer := finish (s.writeV x (s.readV x &&& s.readV y))

/-- xor: `V[x] <- V[x] XOR V[y]`, no flag (R145). -/
def execXor (x y : RegNo) (s : State) : Answer := finish (s.writeV x (s.readV x ^^^ s.readV y))

/-- add-reg: the sum modulo 256, then VF = carry (R146, R154). -/
def execAddReg (x y : RegNo) (s : State) : Answer :=
  let a := s.readV x
  let b := s.readV y
  finish (s.writeResultFlag x (addBytes a b) (carry a b))

/-- sub-reg: `(V[x] - V[y]) mod 256`, then VF = 1 if `V[x] >= V[y]` (R147, R154). -/
def execSubReg (x y : RegNo) (s : State) : Answer :=
  let a := s.readV x
  let b := s.readV y
  finish (s.writeResultFlag x (subBytes a b) (noBorrow a b))

/-- shift-right: `V[x] >> 1`, then VF = old bit 0 of `V[x]`; `y` is ignored (R148, R79, R154). -/
def execShiftRight (x : RegNo) (s : State) : Answer :=
  let a := s.readV x
  finish (s.writeResultFlag x (shiftRightByte a) (bitZero a))

/-- subn-reg: `(V[y] - V[x]) mod 256`, then VF = 1 if `V[y] >= V[x]` (R149, R154). -/
def execSubnReg (x y : RegNo) (s : State) : Answer :=
  let a := s.readV x
  let b := s.readV y
  finish (s.writeResultFlag x (subBytes b a) (noBorrow b a))

/-- shift-left: `(V[x] * 2) mod 256`, then VF = old bit 7 of `V[x]`; `y` is ignored (R150, R79, R154). -/
def execShiftLeft (x : RegNo) (s : State) : Answer :=
  let a := s.readV x
  finish (s.writeResultFlag x (shiftLeftByte a) (bitSeven a))

/-- load-index: `I <- zext_16(nnn)`; the value is not checked here (R151). -/
def execLoadIndex (nnn : Addr12) (s : State) : Answer := finish (s.setIndex (zextAddress nnn))

/-- random with the drawn byte `r` given: `V[x] <- r AND kk` (R152). -/
def randomWith (r : Byte) (x : RegNo) (kk : Byte) (s : State) : Answer := finish (s.writeV x (r &&& kk))

/-- random: draws exactly one byte, a free value, and stores it masked (R152, R155; log entry 3). -/
def execRandom (x : RegNo) (kk : Byte) (s : State) : Answer :=
  randomWith s.drawRandom.1 x kk s.drawRandom.2

end Sys2Proof.Machine
end

