-- ==== Sys2Proof/Machine/Control.lean ====
section
/-! DEFINITION. The control-transfer instructions (41_control_transfer.md). On entry PC is the instruction's
address plus 2 (R104). None writes VF. -/

namespace Sys2Proof.Machine

/-- return: pop the stack into PC; StackUnderflow when it is empty. The popped value is not checked (R120, R129). -/
def execReturn (s : State) : Answer :=
  match s.pop with
  | .error e => raise e s
  | .ok (a, s') => finish (s'.setPc a)

/-- jump: `pc <- zext_16(nnn)` (R121). -/
def execJump (nnn : Addr12) (s : State) : Answer := finish (s.setPc (zextAddress nnn))

/-- call: push the advanced PC, then `pc <- zext_16(nnn)`; StackOverflow at full depth, nothing pushed (R122). -/
def execCall (nnn : Addr12) (s : State) : Answer :=
  match s.push s.pc with
  | .error e => raise e s
  | .ok s' => finish (s'.setPc (zextAddress nnn))

/-- skip-eq-imm: `if V[x] = kk then pc <- pc + 2` (R123). -/
def execSkipEqImm (x : RegNo) (kk : Byte) (s : State) : Answer := skipIf (s.readV x == kk) s

/-- skip-neq-imm: `if V[x] != kk then pc <- pc + 2` (R124). -/
def execSkipNeqImm (x : RegNo) (kk : Byte) (s : State) : Answer := skipIf (s.readV x != kk) s

/-- skip-eq-reg: `if V[x] = V[y] then pc <- pc + 2` (R125). -/
def execSkipEqReg (x y : RegNo) (s : State) : Answer := skipIf (s.readV x == s.readV y) s

/-- skip-neq-reg: `if V[x] != V[y] then pc <- pc + 2` (R126). -/
def execSkipNeqReg (x y : RegNo) (s : State) : Answer := skipIf (s.readV x != s.readV y) s

/-- jump-offset: `t <- nnn + V[0]`; OutOfBounds(t) above 0xFFF, else `pc <- t` (R127, R129; D9, log entry 17). -/
def execJumpOffset (nnn : Addr12) (s : State) : Answer :=
  if s.offsetTarget nnn > Config.memSize - 1 then raise (.outOfBounds (s.offsetTarget nnn)) s
  else finish (s.setPc (BitVec.ofNat 16 (s.offsetTarget nnn)))

end Sys2Proof.Machine
end

