-- ==== Sys2Proof/Machine/Display.lean ====
section
/-! DEFINITION. The display instructions (43_display.md). Neither changes PC, the stack, I, memory or the
timers. -/

namespace Sys2Proof.Machine

/-- What draw accumulates: the framebuffer so far, and whether a pixel has collided so far (R172). -/
structure Canvas where
  fb : Framebuffer
  collision : Bool
  deriving DecidableEq, Repr

/-- One sprite pixel at cell `k`: a collision when the sprite bit and the cell are both 1, then
`FB[k] <- FB[k] XOR bit` (R172). -/
def plotPixel (bit : Bool) (k : Nat) (c : Canvas) : Canvas :=
  ⟨if bit then togglePixel c.fb k else c.fb, c.collision || (bit && pixelAt c.fb k)⟩

/-- One sprite row: its eight columns, most significant bit first (R172). -/
def plotRow (vx vy row : Nat) (b : Byte) (c : Canvas) : Canvas :=
  (List.range 8).foldl (fun c col => plotPixel (spriteBit b col) (pixelCell vx vy row col) c) c

/-- The rows of a sprite from row number `row` on (R172). -/
def plotRows (vx vy : Nat) : Nat → List Byte → Canvas → Canvas
  | _, [], c => c
  | row, b :: rest, c => plotRows vx vy (row + 1) rest (plotRow vx vy row b c)

/-- clear-display: every cell 0; VF is not written (R170). -/
def execClearDisplay (s : State) : Answer := finish (s.setFb 0#2048)

/-- draw: the coordinates are read first (R174; D8, log entry 16), the addresses are checked before any write
(R173; D7, log entry 15), the sprite is XORed into the framebuffer, and VF receives the accumulated collision
(R172). -/
def execDraw (x y : RegNo) (n : Nibble) (s : State) : Answer :=
  let vx := (s.readV x).toNat
  let vy := (s.readV y).toNat
  if s.spriteOutside n.toNat then raise (.outOfBounds (s.spriteAddress (n.toNat - 1))) s
  else
    let c := plotRows vx vy 0 (s.spriteBytes n.toNat) ⟨s.fb, false⟩
    finish ((s.setFb c.fb).writeFlag c.collision)

end Sys2Proof.Machine
end

