-- ==== Sys2Proof/Machine/Dispatch.lean ====
section
/-! DEFINITION. EXECUTE of a decoded instruction: one arm per constructor, in the table's order (R102). -/

namespace Sys2Proof.Machine

def exec (i : Instr) (s : State) : Host.Outcome State Fault Refusal :=
  match i with
  | .clearDisplay => Sys2Proof.Machine.execClearDisplay s
  | .ret => Sys2Proof.Machine.execReturn s
  | .jump nnn => Sys2Proof.Machine.execJump nnn s
  | .call nnn => Sys2Proof.Machine.execCall nnn s
  | .skipEqImm x kk => Sys2Proof.Machine.execSkipEqImm x kk s
  | .skipNeqImm x kk => Sys2Proof.Machine.execSkipNeqImm x kk s
  | .skipEqReg x y => Sys2Proof.Machine.execSkipEqReg x y s
  | .loadImm x kk => Sys2Proof.Machine.execLoadImm x kk s
  | .addImm x kk => Sys2Proof.Machine.execAddImm x kk s
  | .loadReg x y => Sys2Proof.Machine.execLoadReg x y s
  | .orReg x y => Sys2Proof.Machine.execOr x y s
  | .andReg x y => Sys2Proof.Machine.execAnd x y s
  | .xorReg x y => Sys2Proof.Machine.execXor x y s
  | .addReg x y => Sys2Proof.Machine.execAddReg x y s
  | .subReg x y => Sys2Proof.Machine.execSubReg x y s
  | .shiftRight x => Sys2Proof.Machine.execShiftRight x s
  | .subnReg x y => Sys2Proof.Machine.execSubnReg x y s
  | .shiftLeft x => Sys2Proof.Machine.execShiftLeft x s
  | .skipNeqReg x y => Sys2Proof.Machine.execSkipNeqReg x y s
  | .loadIndex nnn => Sys2Proof.Machine.execLoadIndex nnn s
  | .jumpOffset nnn => Sys2Proof.Machine.execJumpOffset nnn s
  | .random x kk => Sys2Proof.Machine.execRandom x kk s
  | .draw x y n => Sys2Proof.Machine.execDraw x y n s

end Sys2Proof.Machine
end

