-- ==== Sys2Proof/Machine/Step.lean ====
section
/-! DEFINITION. The step of the machine is one CYCLE: FETCH, then EXECUTE of the word it returned (R105, D12; log
entry 20), and the placing of an instruction where the next fetch reads. -/

namespace Sys2Proof.Machine

/-- CYCLE: a fetch error ends the cycle; a word that selects no instruction is reported; else the decoded
instruction is executed on the state whose PC the fetch has advanced (R100 to R105). -/
def step (s : State) : Host.Outcome State Fault Refusal :=
  match s.fetch with
  | .error e => raiseFetch e s
  | .ok (w, s') =>
    match decode w with
    | .error _ => raiseUnsupported w s'
    | .ok i => exec i s'

/-- Where `withFetchWord` puts the instruction: at PC, or at LOAD_OFFSET when no fetch can succeed at PC. -/
def State.fetchPlace (s : State) : Addr :=
  if s.pc.toNat + 1 < Config.memSize then s.pc else BitVec.ofNat 16 Config.loadOffset

/-- The state with the instruction of the low `nbits` bits of `w` stored where `step` fetches next, high byte at
the lower address (R52). PC changes only where a fetch at PC could not succeed (log entry 9). -/
def State.withFetchWord (s : State) (nbits w : Nat) : State :=
  let word : Word := BitVec.ofNat 16 (w % 2 ^ nbits)
  let a := s.fetchPlace
  { s with
    pc := a
    mem := Memory.write (Memory.write s.mem a.toNat (wordHigh word)) (a.toNat + 1) (wordLow word) }

end Sys2Proof.Machine
end

