-- ==== Sys2Proof/Machine/HostAccess.lean ====
section
/-! DEFINITION. What the outside may do to the machine between cycles (R8, R60, R227): the program load LOAD
(R224), the external timer tick TIMER_TICK (R202), the framebuffer view FB_VIEW (R204) and the bounds-checked
direct access STATE_ACCESS (R40). `step` calls none of them. -/

namespace Sys2Proof.Machine

/-! ## LOAD -/

/-- Copy bytes to consecutive addresses from `a` on (R65, R224). -/
def Memory.writeBytes : Memory → Nat → List Byte → Memory
  | m, _, [] => m
  | m, a, b :: rest => Memory.writeBytes (Memory.write m a b) (a + 1) rest

/-- LOAD(bytes, offset): copies the sequence verbatim, or fails with nothing copied when it does not fit; it
writes nothing but memory (R224; D16, log entry 22). -/
def State.load (s : State) (bytes : List Byte) (offset : Nat) : Except MachineError State :=
  if offset + bytes.length > Config.memSize then .error (.outOfBounds (offset + bytes.length - 1))
  else .ok (s.setMem (Memory.writeBytes s.mem offset bytes))

/-- The start of a run: RESET, then LOAD(image, 0x200) (R108, R223). -/
def State.boot (image : List Byte) : Except MachineError State := State.reset.load image Config.loadOffset

/-! ## TIMER_TICK and FB_VIEW -/

/-- The external decrement of one timer; at 0 the spec leaves the result open, a free value (R202; D17, log
entry 23). -/
def tickTimer (b : Byte) : Byte := if b = 0#8 then Config.timerTickAtZero else b - 1#8

/-- TIMER_TICK: decrements DT and ST and touches nothing else (R60, R202). -/
def State.timerTick (s : State) : State := (s.setDt (tickTimer s.dt)).setSt (tickTimer s.st)

/-- FB_VIEW: the 64 by 32 grid of 0/1 values, row by row; reading it has no effect on the machine (R32, R204). -/
def State.fbView (s : State) : List (List Nat) :=
  (List.range Config.fbH).map fun cy =>
    (List.range Config.fbW).map fun cx => (pixelAt s.fb (cy * Config.fbW + cx)).toNat

/-! ## STATE_ACCESS (R40): reads may be made at any time between cycles, and a write must keep every invariant.
A failed access changes nothing. The rule names no kind for a register or framebuffer index or a pixel value out
of range, nor for a push beyond the depth; the kinds here are a DESIGN CHOICE (log entry 24). I, PC and the timers
admit every value of their width (R31) and are written by `State.setIndex`, `State.setPc`, `State.setDt` and
`State.setSt`; the stack is pushed and popped by `State.push` and `State.pop`; memory is read by
`State.memRead1`. -/

/-- Read a general register by index 0 to 15. -/
def State.accessReadV (s : State) (k : Nat) : Except MachineError Byte :=
  if k < Config.nregs then .ok (s.readV (BitVec.ofNat 4 k)) else .error (.outOfBounds k)

/-- Write a general register by index 0 to 15. -/
def State.accessWriteV (s : State) (k : Nat) (b : Byte) : Except MachineError State :=
  if k < Config.nregs then .ok (s.writeV (BitVec.ofNat 4 k) b) else .error (.outOfBounds k)

/-- Write one memory byte at address 0 to 4095: `MemWrite(addr, 1, b)` (R7, R40). -/
def State.accessWriteMem (s : State) (addr : Nat) (b : Byte) : Except MachineError State :=
  if addr < Config.memSize then .ok (s.setMem (Memory.write s.mem addr b)) else .error (.outOfBounds addr)

/-- Read a framebuffer cell by index 0 to 2047. -/
def State.accessReadPixel (s : State) (k : Nat) : Except MachineError Nat :=
  if k < Config.fbW * Config.fbH then .ok (pixelAt s.fb k).toNat else .error (.outOfBounds k)

/-- Write a framebuffer cell by index 0 to 2047 with the value 0 or 1. -/
def State.accessWritePixel (s : State) (k val : Nat) : Except MachineError State :=
  if k < Config.fbW * Config.fbH ∧ val < 2 then
    .ok (s.setFb (if (pixelAt s.fb k).toNat = val then s.fb else togglePixel s.fb k))
  else .error (.outOfBounds k)

end Sys2Proof.Machine
end

