-- ==== Sys2Proof/Machine/Schedule.lean ====
section
/-! DEFINITION. A run with the outside in it: cycles, and between them timer ticks and framebuffer views, each
atomic (R8, R60, R108). -/

namespace Sys2Proof.Machine

/-- What may happen between two cycles of a run, and the cycle itself (R60, R227). -/
inductive Event where
  /-- CYCLE (R105) -/
  | cycle
  /-- TIMER_TICK (R202) -/
  | timerTick
  /-- FB_VIEW (R204) -/
  | fbView
  deriving DecidableEq, Repr

/-- One event. A view leaves the machine as it is (R204). -/
def perform (e : Event) (s : State) : Answer :=
  match e with
  | .cycle => step s
  | .timerTick => .next s.timerTick
  | .fbView => .next s

/-- The events of a run in order. -/
def runEvents : List Event → State → Answer
  | [], s => .next s
  | e :: rest, s =>
    match perform e s with
    | .next s' => runEvents rest s'
    | .fault r => .fault r
    | .refused r => .refused r

end Sys2Proof.Machine
end

