-- ==== Sys2Proof/Safety.lean ====
section
/-! DEFINITION. What counts as a safe run, in the terms claims use: the invariant of every run (R25, R28, R29, R33),
the error an instruction raises (R185, R192), the cycle that reports none (R233), which registers an instruction
reads and writes (R23), and the frames of the statements. Written from those rules, not from the meanings. -/

namespace Sys2Proof.Machine

/-- The invariant of every run: memory in canonical form within 0 to 0xFFF (R33, R50), at most STACK_DEPTH calls
nested (R29, R31), I at most 0xFFF (R25), PC at most 0x1002 and every return address at most 0x1000 (R28). -/
abbrev State.Inv (s : State) : Prop :=
  Memory.wf s.mem = true ∧ s.sp ≤ Config.stackDepth ∧ s.index.toNat ≤ 0xFFF ∧ s.pc.toNat ≤ 0x1002 ∧
    s.stack.all (fun a => a.toNat ≤ 0x1000) = true

/-- The error EXECUTE of the instruction raises in a state, if any: the table of R185 and the list of R192. -/
def errorOf (i : Instr) (s : State) : Option MachineError :=
  match i with
  | .ret => if s.sp = 0 then some .stackUnderflow else none
  | .call _ => if s.sp = Config.stackDepth then some .stackOverflow else none
  | .jumpOffset nnn =>
    if nnn.toNat + (s.readV 0#4).toNat > 0xFFF then some (.outOfBounds (nnn.toNat + (s.readV 0#4).toNat)) else none
  | .draw _ _ n =>
    if n.toNat > 0 ∧ s.index.toNat + n.toNat - 1 > 0xFFF then some (.outOfBounds (s.index.toNat + n.toNat - 1))
    else none
  | .clearDisplay | .jump _ | .skipEqImm _ _ | .skipNeqImm _ _ | .skipEqReg _ _ | .loadImm _ _ | .addImm _ _
  | .loadReg _ _ | .orReg _ _ | .andReg _ _ | .xorReg _ _ | .addReg _ _ | .subReg _ _ | .shiftRight _
  | .subnReg _ _ | .shiftLeft _ | .skipNeqReg _ _ | .loadIndex _ | .random _ _ => none

/-- What EXECUTE of the instruction hands to the driver (R102, R192). -/
def resultOf (i : Instr) (s : State) : CycleResult :=
  match errorOf i s with
  | none => .ok
  | some e => .execErr e

/-- The word stored at PC, big-endian (R52). -/
def State.wordAtPc (s : State) : Word := wordOfBytes (s.byteAt s.pc.toNat) (s.byteAt (s.pc.toNat + 1))

/-- A safe state: the next cycle reports no error. PC is at most 0xFFE, the word there is one of the 23
instructions, and the instruction's raising condition does not hold once the fetch has advanced PC (R233). -/
def State.Safe (s : State) : Prop :=
  s.pc.toNat ≤ 0xFFE ∧ ∃ i, decode s.wordAtPc = .ok i ∧ errorOf i (s.setPc (s.pc + 2#16)) = none

/-- The registers an instruction reads (R23): jump-offset reads V0 implicitly. -/
def readsV (i : Instr) (r : RegNo) : Bool :=
  match i with
  | .skipEqImm x _ | .skipNeqImm x _ | .addImm x _ | .shiftRight x | .shiftLeft x => r == x
  | .skipEqReg x y | .skipNeqReg x y | .orReg x y | .andReg x y | .xorReg x y | .addReg x y | .subReg x y
  | .subnReg x y | .draw x y _ => r == x || r == y
  | .loadReg _ y => r == y
  | .jumpOffset _ => r == 0#4
  | .clearDisplay | .ret | .jump _ | .call _ | .loadImm _ _ | .loadIndex _ | .random _ _ => false

/-- The registers an instruction writes (R23): its destination, and VF where it is written as a flag. -/
def writesV (i : Instr) (r : RegNo) : Bool :=
  match i with
  | .loadImm x _ | .addImm x _ | .loadReg x _ | .orReg x _ | .andReg x _ | .xorReg x _ | .random x _ => r == x
  | .addReg x _ | .subReg x _ | .shiftRight x | .subnReg x _ | .shiftLeft x => r == x || r == 15#4
  | .draw _ _ _ => r == 15#4
  | .clearDisplay | .ret | .jump _ | .call _ | .skipEqImm _ _ | .skipNeqImm _ _ | .skipEqReg _ _
  | .skipNeqReg _ _ | .loadIndex _ | .jumpOffset _ => false

/-! ## Frames -/

/-- Every byte of memory reads as before. -/
def SameMemory (s t : State) : Prop := ∀ a, t.byteAt a = s.byteAt a

/-- Every framebuffer cell is as before. -/
def SamePixels (s t : State) : Prop := ∀ k, pixelAt t.fb k = pixelAt s.fb k

/-- Every general register is as before. -/
def SameRegs (s t : State) : Prop := ∀ r, t.readV r = s.readV r

/-- Every general register but `x` is as before. -/
def SameRegsBut (x : RegNo) (s t : State) : Prop := ∀ r, r ≠ x → t.readV r = s.readV r

/-- The timers and the number of drawn random bytes are as before. -/
def SameTimersAndDraws (s t : State) : Prop := t.dt = s.dt ∧ t.st = s.st ∧ t.draws = s.draws

/-- All but the general registers, the draws and the report is as before. -/
def SameOutsideRegs (s t : State) : Prop :=
  t.index = s.index ∧ t.pc = s.pc ∧ t.stack = s.stack ∧ t.dt = s.dt ∧ t.st = s.st ∧ SamePixels s t ∧ SameMemory s t

/-- An instruction without flag has completed: `V[x]` holds `result`, all else is as before, and the cycle
reports Ok. -/
def WroteReg (x : RegNo) (result : Byte) (s t : State) : Prop :=
  t.readV x = result ∧ SameRegsBut x s t ∧ SameOutsideRegs s t ∧ t.draws = s.draws ∧ t.report = some .ok

/-- An instruction with a flag has completed: VF holds `flag`, `V[x]` holds `result` unless `x` is VF, all else is
as before, and the cycle reports Ok (R22, R154). -/
def WroteRegAndFlag (x : RegNo) (result flag : Nat) (s t : State) : Prop :=
  (t.readV 15#4).toNat = flag ∧ (x ≠ 15#4 → (t.readV x).toNat = result) ∧
    (∀ r, r ≠ x → r ≠ 15#4 → t.readV r = s.readV r) ∧ SameOutsideRegs s t ∧ t.draws = s.draws ∧ t.report = some .ok

/-- A control transfer has completed: PC is `target`, the stack is `stk`, all else is as before, and the cycle
reports Ok. -/
def Transferred (target : Addr) (stk : List Addr) (s t : State) : Prop :=
  t.pc = target ∧ t.stack = stk ∧ SameRegs s t ∧ t.index = s.index ∧ SameTimersAndDraws s t ∧ SamePixels s t ∧
    SameMemory s t ∧ t.report = some .ok

/-- The answer with its next state changed by `f`. -/
def onNext (f : State → State) : Answer → Answer
  | .next t => .next (f t)
  | .fault r => .fault r
  | .refused r => .refused r

end Sys2Proof.Machine
end

