-- ==== Sys2Proof/Certificates/Slice0/Obligations.lean ====
section
/-! DEFINITION. The statements for the provers, from the numbered rules of spec/. `exec i s` is EXECUTE of the
instruction `i` in a state whose PC the fetch has already advanced (R104); `step` is CYCLE (R105). An outcome of a
cycle is read from `State.report`, the model's own field for what the cycle hands to the driver (log entry 2). -/

open Sys2Proof Sys2Proof.Machine

/-! ## Reset and the invariant -/

/-- R220: after RESET every memory byte, register, I, DT, ST and pixel is 0, the stack is empty, PC is 0x200. -/
def Obligations.ResetValues : Prop :=
  (∀ a, State.reset.byteAt a = 0#8) ∧ (∀ r, State.reset.readV r = 0#8) ∧ State.reset.index = 0#16 ∧
    State.reset.pc = 0x200#16 ∧ State.reset.sp = 0 ∧ State.reset.dt = 0#8 ∧ State.reset.st = 0#8 ∧
    ∀ k, pixelAt State.reset.fb k = false

/-- The invariant holds at reset. -/
def Obligations.ResetMeetsInvariant : Prop := State.reset.Inv

/-- Every cycle keeps the invariant, from every state that meets it (10_state.md sections 3 and 4; the bounds are
the spec's own derivations, STACK_DEPTH = 16 its decision D5, log entry 13). -/
def Obligations.StepKeepsInvariant : Prop := ∀ s t : State, s.Inv → step s = .next t → t.Inv

/-! ## Encoding -/

/-- Decoding the canonical word of any instruction gives it back, operands whole, and from bytes too (the numbers
are PRESUMED, log entry 10). -/
def Obligations.DecodeOfEncode : Prop :=
  ∀ (i : Instr) (rest : List Byte), decode (encode i) = .ok i ∧ decodeBytes (encodeBytes i ++ rest) = .ok (i, rest)

/-- A decoded word is the canonical word but for the bits decode ignores, and those bits do not matter (D4, log
entry 12). -/
def Obligations.EncodeOfDecode : Prop :=
  ∀ (w : Word) (i : Instr), decode w = .ok i →
    encode i = w &&& significantBits i ∧
    ∀ w' : Word, w' &&& significantBits i = w &&& significantBits i → decode w' = .ok i

/-- The decoder agrees with the opcode map: a decoded word selects exactly one row, its instruction's, and an
unsupported word selects none (30_encoding.md rules R75, R81; the numbers are PRESUMED, log entry 10). -/
def Obligations.DecodeAgreesWithOpcodeMap : Prop :=
  ∀ w : Word,
    match decode w with
    | .ok i => ∃ r, opcodeMap.filter (fun r => r.selects w) = [r] ∧ r.mnemonic = i.mnemonic
    | .error e => e = .unsupportedOpcode w ∧ opcodeMap.filter (fun r => r.selects w) = []

/-- Which words are unsupported (30_encoding.md section 3; group 0 by decision D3, log entry 11). -/
def Obligations.UnsupportedWordsExactly : Prop :=
  ∀ w : Word, decode w = .error (.unsupportedOpcode w) ↔
    (w.toNat / 4096 = 0 ∧ w ≠ 0x00E0#16 ∧ w ≠ 0x00EE#16) ∨
    (w.toNat / 4096 = 8 ∧ w.toNat % 16 ∈ [8, 9, 0xA, 0xB, 0xC, 0xD, 0xF]) ∨
    w.toNat / 4096 = 0xE ∨ w.toNat / 4096 = 0xF

/-- Decision D3 accepts the fewest words: what the exact match of group 0 selects, every alternative of
GROUP0_MATCH selects too (log entry 11). -/
def Obligations.ExactGroupZeroIsTheNarrowest : Prop :=
  ∀ (m : Config.Group0Match) (w : Word) (i : Instr),
    selectGroup0 .exact w = some i → selectGroup0 m w = some i

/-- A word of each family, written out from rule R75, decodes to the instruction it stands for, and words beside
them are rejected by name. -/
def Obligations.WordsDecodeAsWritten : Prop :=
  decode 0x00E0 = .ok .clearDisplay ∧ decode 0x2208 = .ok (.call 0x208) ∧ decode 0x4311 = .ok (.skipNeqImm 3 0x11) ∧
    decode 0x812E = .ok (.shiftLeft 1) ∧ decode 0x8127 = .ok (.subnReg 1 2) ∧ decode 0xA20C = .ok (.loadIndex 0x20C) ∧
    decode 0xC10F = .ok (.random 1 0x0F) ∧ decode 0xD012 = .ok (.draw 0 1 2) ∧
    decode 0x8129 = .error (.unsupportedOpcode 0x8129) ∧ decode 0x0000 = .error (.unsupportedOpcode 0)

/-! ## The cycle -/

/-- FETCH succeeds exactly when PC is at most 0xFFE; it returns M[pc] * 256 + M[pc+1] and the state with PC
advanced by 2; else it raises OutOfBounds(pc) (40_fetch_decode_cycle.md section 1; the payload is decision D11, log
entry 19). -/
def Obligations.FetchReadsBigEndian : Prop :=
  ∀ s : State,
    if s.pc.toNat ≤ 0xFFE then
      ∃ w : Word, w.toNat = (s.byteAt s.pc.toNat).toNat * 256 + (s.byteAt (s.pc.toNat + 1)).toNat ∧
        s.fetch = .ok (w, s.setPc (s.pc + 2#16))
    else s.fetch = .error (.outOfBounds s.pc.toNat)

/-- When the bytes at PC decode to an instruction, the cycle is EXECUTE of it with PC advanced by 2. -/
def Obligations.StepRunsDecodedInstruction : Prop :=
  ∀ (s : State) (i : Instr), s.pc.toNat ≤ 0xFFE → decode s.wordAtPc = .ok i → step s = exec i (s.setPc (s.pc + 2#16))

/-- Once PC is above 0xFFE every later cycle reports OutOfBounds(pc) and changes nothing else, for ever
(40_fetch_decode_cycle.md section 1; decision D10, log entry 18). -/
def Obligations.FetchFailureRepeatsUnchanged : Prop :=
  ∀ (s : State) (k : Nat), s.pc.toNat > 0xFFE →
    runEvents (List.replicate (k + 1) .cycle) s = .next (s.setReport (some (.fetchErr (.outOfBounds s.pc.toNat))))

/-- A cycle on an unsupported word reports the raw word, advances PC by 2 and changes nothing else. -/
def Obligations.UnsupportedWordIsReported : Prop :=
  ∀ s : State, s.pc.toNat ≤ 0xFFE → decode s.wordAtPc = .error (.unsupportedOpcode s.wordAtPc) →
    step s = .next ((s.setPc (s.pc + 2#16)).setReport (some (.execErr (.unsupportedOpcode s.wordAtPc))))

/-- After an error in FETCH the state is exactly the one before the cycle, and after an error in EXECUTE it is that
state with PC increased by 2; the error kind is what the cycle returns (60_exceptions.md section 2; decision D10,
log entry 18). -/
def Obligations.ErrorEntryLeavesStatePrecise : Prop :=
  ∀ (s t : State) (e : MachineError), step s = .next t →
    (t.report = some (.fetchErr e) → t = s.setReport (some (.fetchErr e))) ∧
    (t.report = some (.execErr e) → t = (s.setPc (s.pc + 2#16)).setReport (some (.execErr e)))

/-- In every state a cycle is enabled and returns one of the three outcomes; the fetch outcome is OutOfBounds(pc)
and only from a PC above 0xFFE (40_fetch_decode_cycle.md sections 3 and 4). -/
def Obligations.EveryCycleHasAnOutcome : Prop :=
  ∀ s : State, ∃ t, step s = .next t ∧
    if s.pc.toNat ≤ 0xFFE then t.report = some .ok ∨ ∃ e, t.report = some (.execErr e)
    else t.report = some (.fetchErr (.outOfBounds s.pc.toNat))

/-- EXECUTE completes in a next state, and it raises exactly the error of 60_exceptions.md sections 1 and 2 when
that instruction's condition holds and none otherwise; an error changes nothing (decisions D5, D7, D9; log entries
13, 15, 17). The premise is part of the invariant. -/
def Obligations.RaisesExactlyTheListedErrors : Prop :=
  ∀ (i : Instr) (s : State), s.sp ≤ Config.stackDepth →
    ∃ t, exec i s = .next t ∧ t.report = some (resultOf i s) ∧
      ∀ e, errorOf i s = some e → t = s.setReport (some (.execErr e))

/-- A cycle reports Ok exactly in a safe state (70_reset_and_hazards.md section 3, the error-free conditions). -/
def Obligations.SafeStatesAreErrorFree : Prop :=
  ∀ s t : State, s.sp ≤ Config.stackDepth → step s = .next t → (t.report = some .ok ↔ s.Safe)

/-- What an earlier cycle reported does not influence a cycle: the report is an output, not a record kept by the
machine (60_exceptions.md section 2; log entry 2). The two cycles compared draw the same byte (log entry 3). -/
def Obligations.ReportIsNeverRead : Prop :=
  ∀ (s : State) (r : Option CycleResult), step (s.setReport r) = step s

/-- The timers neither influence a cycle nor are changed by it (10_state.md section 3, the timers). The two
cycles compared draw the same byte (log entry 3). -/
def Obligations.TimersDoNotInfluenceCycles : Prop :=
  ∀ (s : State) (d e : Byte), step ((s.setDt d).setSt e) = onNext (fun t => (t.setDt d).setSt e) (step s)

/-- Wherever timer ticks and framebuffer views fall between the cycles of a run, the run ends in a next state, and
but for DT and ST it is the state the cycles alone end in (20_memory.md section 6). What a tick leaves in a timer that
is 0 is a free value (decision D17, log entry 23). The two runs compared draw the same random bytes, since the k-th
draw is the same free value in both (log entry 3). -/
def Obligations.OutsideEventsDoNotAffectRuns : Prop :=
  ∀ (es : List Event) (s : State), ∃ t u,
    runEvents es s = .next t ∧ runEvents (es.filter (fun e => e == .cycle)) s = .next u ∧
      (t.setDt 0#8).setSt 0#8 = (u.setDt 0#8).setSt 0#8

/-- No cycle writes memory, so code cannot change itself (10_state.md section 4, 20_memory.md section 6). -/
def Obligations.NoCycleWritesMemory : Prop := ∀ s t : State, step s = .next t → t.mem = s.mem

/-- Only load-index writes I, only call and return the stack, only clear-display and draw the framebuffer, only
the eight control transfers PC, only random draws a byte, and none the timers (10_state.md sections 3 and 4). -/
def Obligations.OnlyNamedInstructionsWriteSpecialState : Prop :=
  ∀ (i : Instr) (s t : State), exec i s = .next t →
    ((∀ nnn, i ≠ .loadIndex nnn) → t.index = s.index) ∧
    ((∀ nnn, i ≠ .call nnn) → i ≠ .ret → t.stack = s.stack) ∧
    ((∀ x y n, i ≠ .draw x y n) → i ≠ .clearDisplay → t.fb = s.fb) ∧
    (i.mnemonic ∉ ["return", "jump", "call", "skip-eq-imm", "skip-neq-imm", "skip-eq-reg", "skip-neq-reg",
      "jump-offset"] → t.pc = s.pc) ∧
    ((∀ x kk, i ≠ .random x kk) → t.draws = s.draws) ∧ t.dt = s.dt ∧ t.st = s.st

/-- No instruction changes a general register that R23 does not list it as writing. -/
def Obligations.RegistersWrittenAreTheListed : Prop :=
  ∀ (i : Instr) (s t : State) (r : RegNo), exec i s = .next t → writesV i r = false → t.readV r = s.readV r

/-- No instruction is influenced by a general register that R23 does not list it as reading: whatever that register
holds, everything but that register comes out the same. The two executions compared draw the same byte (log entry 3). -/
def Obligations.RegistersReadAreTheListed : Prop :=
  ∀ (i : Instr) (s : State) (r : RegNo) (b : Byte), readsV i r = false →
    onNext (fun t => t.writeV r 0#8) (exec i (s.writeV r b)) = onNext (fun t => t.writeV r 0#8) (exec i s)

/-- The random bytes influence and are drawn by random alone (40_fetch_decode_cycle.md section 4, D13; the counter
of draws is the model's, log entry 3). -/
def Obligations.OnlyRandomDrawsAByte : Prop :=
  ∀ (i : Instr) (s : State) (k : Nat), (∀ x kk, i ≠ .random x kk) →
    exec i (s.setDraws k) = onNext (fun t => t.setDraws k) (exec i s)

/-! ## Register load, arithmetic, logic, shift, index, random -/

/-- R140: V[x] = kk and no other register or memory cell changes. -/
def Obligations.LoadImmResult : Prop :=
  ∀ (x : RegNo) (kk : Byte) (s : State), ∃ t, exec (.loadImm x kk) s = .next t ∧ WroteReg x kk s t

/-- R141: V[x] = (V[x] + kk) mod 256, and VF is not written unless it is the destination. -/
def Obligations.AddImmResult : Prop :=
  ∀ (x : RegNo) (kk : Byte) (s : State), ∃ t, exec (.addImm x kk) s = .next t ∧
    (t.readV x).toNat = ((s.readV x).toNat + kk.toNat) % 256 ∧ WroteReg x (t.readV x) s t

/-- R142: V[x] = V[y]. -/
def Obligations.LoadRegResult : Prop :=
  ∀ (x y : RegNo) (s : State), ∃ t, exec (.loadReg x y) s = .next t ∧ WroteReg x (s.readV y) s t

/-- R143, R144, R145: or, and, xor of the two registers into V[x], bit by bit, and no flag. -/
def Obligations.LogicResults : Prop :=
  ∀ (x y : RegNo) (s : State),
    (∃ t, exec (.orReg x y) s = .next t ∧ WroteReg x (t.readV x) s t ∧
      ∀ j, (t.readV x).getLsbD j = ((s.readV x).getLsbD j || (s.readV y).getLsbD j)) ∧
    (∃ t, exec (.andReg x y) s = .next t ∧ WroteReg x (t.readV x) s t ∧
      ∀ j, (t.readV x).getLsbD j = ((s.readV x).getLsbD j && (s.readV y).getLsbD j)) ∧
    (∃ t, exec (.xorReg x y) s = .next t ∧ WroteReg x (t.readV x) s t ∧
      ∀ j, (t.readV x).getLsbD j = ((s.readV x).getLsbD j ^^ (s.readV y).getLsbD j))

/-- R146: the sum modulo 256, then VF = 1 exactly when the sum exceeds 255. -/
def Obligations.AddRegResult : Prop :=
  ∀ (x y : RegNo) (s : State), ∃ t, exec (.addReg x y) s = .next t ∧
    WroteRegAndFlag x (((s.readV x).toNat + (s.readV y).toNat) % 256)
      (if (s.readV x).toNat + (s.readV y).toNat > 255 then 1 else 0) s t

/-- R147: the difference modulo 256, then VF = 1 exactly when V[x] >= V[y] before. -/
def Obligations.SubRegResult : Prop :=
  ∀ (x y : RegNo) (s : State), ∃ t, exec (.subReg x y) s = .next t ∧
    WroteRegAndFlag x ((256 + (s.readV x).toNat - (s.readV y).toNat) % 256)
      (if (s.readV x).toNat ≥ (s.readV y).toNat then 1 else 0) s t

/-- R148: V[x] divided by 2, rounded down, then VF = the old bit 0 of V[x]. -/
def Obligations.ShiftRightResult : Prop :=
  ∀ (x : RegNo) (s : State), ∃ t, exec (.shiftRight x) s = .next t ∧
    WroteRegAndFlag x ((s.readV x).toNat / 2) ((s.readV x).toNat % 2) s t

/-- R149: V[y] - V[x] modulo 256, then VF = 1 exactly when V[y] >= V[x] before. -/
def Obligations.SubnRegResult : Prop :=
  ∀ (x y : RegNo) (s : State), ∃ t, exec (.subnReg x y) s = .next t ∧
    WroteRegAndFlag x ((256 + (s.readV y).toNat - (s.readV x).toNat) % 256)
      (if (s.readV y).toNat ≥ (s.readV x).toNat then 1 else 0) s t

/-- R150: V[x] * 2 modulo 256, then VF = the old bit 7 of V[x]. -/
def Obligations.ShiftLeftResult : Prop :=
  ∀ (x : RegNo) (s : State), ∃ t, exec (.shiftLeft x) s = .next t ∧
    WroteRegAndFlag x ((s.readV x).toNat * 2 % 256) ((s.readV x).toNat / 128) s t

/-- R151: I = nnn and nothing else changes. -/
def Obligations.LoadIndexResult : Prop :=
  ∀ (nnn : Addr12) (s : State), ∃ t, exec (.loadIndex nnn) s = .next t ∧ t.index.toNat = nnn.toNat ∧
    SameRegs s t ∧ t.pc = s.pc ∧ t.stack = s.stack ∧ SameTimersAndDraws s t ∧ SamePixels s t ∧ SameMemory s t ∧
    t.report = some .ok

/-- random stores the byte of this draw, a free value, AND kk, and draws exactly one byte (42_load_and_alu.md
section 12; the counter of draws is the model's, log entry 3). -/
def Obligations.RandomResult : Prop :=
  ∀ (x : RegNo) (kk : Byte) (s : State), ∃ t, exec (.random x kk) s = .next t ∧
    t.readV x = Config.randomByte s.draws &&& kk ∧ t.readV x &&& ~~~kk = 0#8 ∧ t.draws = s.draws + 1 ∧
    SameRegsBut x s t ∧ SameOutsideRegs s t ∧ t.report = some .ok

/-! ## Control transfer -/

/-- R121: pc = nnn, zero-extended, and nothing else changes. -/
def Obligations.JumpResult : Prop :=
  ∀ (nnn : Addr12) (s : State), ∃ t, exec (.jump nnn) s = .next t ∧ t.pc.toNat = nnn.toNat ∧
    Transferred t.pc s.stack s t

/-- call below full depth pushes the advanced PC as the newest entry and loads nnn (41_control_transfer.md section
4; the depth is decision D5, log entry 13). -/
def Obligations.CallPushesReturnAddress : Prop :=
  ∀ (nnn : Addr12) (s : State), s.sp < Config.stackDepth → ∃ t, exec (.call nnn) s = .next t ∧
    t.pc.toNat = nnn.toNat ∧ t.sp = s.sp + 1 ∧ t.stackCell s.sp = some s.pc ∧
    (∀ i, i < s.sp → t.stackCell i = s.stackCell i) ∧ Transferred t.pc t.stack s t

/-- call at full depth raises StackOverflow and changes nothing (41_control_transfer.md section 4; decision D5, log
entry 13). -/
def Obligations.CallAtFullDepthOverflows : Prop :=
  ∀ (nnn : Addr12) (s : State), s.sp = Config.stackDepth →
    exec (.call nnn) s = .next (s.setReport (some (.execErr .stackOverflow)))

/-- R120: return pops the newest entry into PC; with an empty stack it raises StackUnderflow and changes nothing. -/
def Obligations.ReturnResult : Prop :=
  ∀ s : State,
    (0 < s.sp → ∃ t, exec .ret s = .next t ∧ s.stackCell (s.sp - 1) = some t.pc ∧ t.sp = s.sp - 1 ∧
      (∀ i, i < t.sp → t.stackCell i = s.stackCell i) ∧ Transferred t.pc t.stack s t) ∧
    (s.sp = 0 → exec .ret s = .next (s.setReport (some (.execErr .stackUnderflow))))

/-- A return with the stack a call left restores PC to the instruction after the call, whatever else the
subroutine did (95_test_vectors.md S7; the depth is decision D5, log entry 13). -/
def Obligations.ReturnUndoesCall : Prop :=
  ∀ (nnn : Addr12) (s : State), s.sp < Config.stackDepth → ∃ t, exec (.call nnn) s = .next t ∧
    ∀ u : State, u.stack = t.stack →
      exec .ret u = .next (((u.setStack s.stack).setPc s.pc).setReport (some .ok))

/-- The immediate skips add 2 to PC exactly when their comparison holds, and change nothing else
(41_control_transfer.md sections 5 and 6). PC + 2 is the 16-bit sum, which wraps only from 0xFFFE and 0xFFFF, states
that no fetch gives; that it wraps there is the model's own (DEDUCED, log entry 8). -/
def Obligations.SkipImmResults : Prop :=
  ∀ (x : RegNo) (kk : Byte) (s : State),
    (∃ t, exec (.skipEqImm x kk) s = .next t ∧
      Transferred (if (s.readV x).toNat = kk.toNat then s.pc + 2#16 else s.pc) s.stack s t) ∧
    (∃ t, exec (.skipNeqImm x kk) s = .next t ∧
      Transferred (if (s.readV x).toNat = kk.toNat then s.pc else s.pc + 2#16) s.stack s t)

/-- The register skips add 2 to PC exactly when their comparison holds, and change nothing else
(41_control_transfer.md sections 7 and 8). PC + 2 is the 16-bit sum, which wraps only from 0xFFFE and 0xFFFF, states
that no fetch gives; that it wraps there is the model's own (DEDUCED, log entry 8). -/
def Obligations.SkipRegResults : Prop :=
  ∀ (x y : RegNo) (s : State),
    (∃ t, exec (.skipEqReg x y) s = .next t ∧
      Transferred (if (s.readV x).toNat = (s.readV y).toNat then s.pc + 2#16 else s.pc) s.stack s t) ∧
    (∃ t, exec (.skipNeqReg x y) s = .next t ∧
      Transferred (if (s.readV x).toNat = (s.readV y).toNat then s.pc else s.pc + 2#16) s.stack s t)

/-- jump-offset with nnn + V0 inside memory loads the sum into PC (41_control_transfer.md section 9; the range
check is decision D9, log entry 17). -/
def Obligations.JumpOffsetInRange : Prop :=
  ∀ (nnn : Addr12) (s : State), nnn.toNat + (s.readV 0#4).toNat ≤ 0xFFF →
    ∃ t, exec (.jumpOffset nnn) s = .next t ∧ t.pc.toNat = nnn.toNat + (s.readV 0#4).toNat ∧
      Transferred t.pc s.stack s t

/-- jump-offset beyond memory raises OutOfBounds of the sum and changes nothing (41_control_transfer.md sections 1
and 9; decision D9, log entry 17). -/
def Obligations.JumpOffsetOutOfRange : Prop :=
  ∀ (nnn : Addr12) (s : State), nnn.toNat + (s.readV 0#4).toNat > 0xFFF →
    exec (.jumpOffset nnn) s = .next (s.setReport (some (.execErr (.outOfBounds (nnn.toNat + (s.readV 0#4).toNat)))))

/-- A jump to its own address leaves the whole state as it was and reports Ok (40_fetch_decode_cycle.md section 4,
the self-jump). -/
def Obligations.SelfJumpIsAFixedPoint : Prop :=
  ∀ (s : State) (nnn : Addr12), s.pc.toNat ≤ 0xFFE → nnn.toNat = s.pc.toNat → decode s.wordAtPc = .ok (.jump nnn) →
    step s = .next (s.setReport (some .ok))

/-! ## Display -/

/-- R170: every pixel is 0 and nothing else changes, VF included. -/
def Obligations.ClearDisplayResult : Prop :=
  ∀ s : State, ∃ t, exec .clearDisplay s = .next t ∧ (∀ k, pixelAt t.fb k = false) ∧ SameRegs s t ∧
    t.index = s.index ∧ t.pc = s.pc ∧ t.stack = s.stack ∧ SameTimersAndDraws s t ∧ SameMemory s t ∧
    t.report = some .ok

/-- draw inside memory: each sprite pixel is XORed into its cell ((Vy+row) mod 32) * 64 + ((Vx+col) mod 64), no
other cell changes, VF is 1 exactly when a sprite bit 1 meets a cell that was 1 and else 0, and nothing else
changes (43_display.md section 2; decisions D6 and D8, log entries 14 and 16). -/
def Obligations.DrawResult : Prop :=
  ∀ (x y : RegNo) (n : Nibble) (s : State), (0 < n.toNat → s.index.toNat + n.toNat - 1 ≤ 0xFFF) →
    ∃ t, exec (.draw x y n) s = .next t ∧
      (∀ row col, row < n.toNat → col < 8 →
        pixelAt t.fb (((s.readV y).toNat + row) % 32 * 64 + ((s.readV x).toNat + col) % 64) =
          (pixelAt s.fb (((s.readV y).toNat + row) % 32 * 64 + ((s.readV x).toNat + col) % 64) ^^
            (s.byteAt (s.index.toNat + row)).getLsbD (7 - col))) ∧
      (∀ k, (∀ row col, row < n.toNat → col < 8 →
          k ≠ ((s.readV y).toNat + row) % 32 * 64 + ((s.readV x).toNat + col) % 64) →
        pixelAt t.fb k = pixelAt s.fb k) ∧
      (t.readV 15#4 = 0#8 ∨ t.readV 15#4 = 1#8) ∧
      (t.readV 15#4 = 1#8 ↔ ∃ row col, row < n.toNat ∧ col < 8 ∧
        (s.byteAt (s.index.toNat + row)).getLsbD (7 - col) = true ∧
        pixelAt s.fb (((s.readV y).toNat + row) % 32 * 64 + ((s.readV x).toNat + col) % 64) = true) ∧
      SameRegsBut 15#4 s t ∧ t.index = s.index ∧ t.pc = s.pc ∧ t.stack = s.stack ∧ SameTimersAndDraws s t ∧
      SameMemory s t ∧ t.report = some .ok

/-- draw beyond memory raises OutOfBounds of the last sprite address and changes nothing (43_display.md section 2;
decision D7, log entry 15). -/
def Obligations.DrawOutsideMemoryRaises : Prop :=
  ∀ (x y : RegNo) (n : Nibble) (s : State), 0 < n.toNat → s.index.toNat + n.toNat - 1 > 0xFFF →
    exec (.draw x y n) s = .next (s.setReport (some (.execErr (.outOfBounds (s.index.toNat + n.toNat - 1)))))

/-- Drawing the same sprite at the same place twice restores the framebuffer, and VF after the second draw is 1
exactly when some sprite bit is 1 at a cell that was 0 before the first (43_display.md section 2, the properties;
the coordinates are not VF). -/
def Obligations.DrawTwiceRestores : Prop :=
  ∀ (x y : RegNo) (n : Nibble) (s : State), (0 < n.toNat → s.index.toNat + n.toNat - 1 ≤ 0xFFF) → x ≠ 15#4 → y ≠ 15#4 →
    ∃ t u, exec (.draw x y n) s = .next t ∧ exec (.draw x y n) t = .next u ∧ u.fb = s.fb ∧
      (u.readV 15#4 = 1#8 ↔ ∃ row col, row < n.toNat ∧ col < 8 ∧
        (s.byteAt (s.index.toNat + row)).getLsbD (7 - col) = true ∧
        pixelAt s.fb (((s.readV y).toNat + row) % 32 * 64 + ((s.readV x).toNat + col) % 64) = false)

/-! ## The outside -/

/-- LOAD that fits copies the sequence verbatim and changes nothing else; LOAD that does not fit fails
(70_reset_and_hazards.md section 2; decision D16, log entry 22). -/
def Obligations.LoadCopiesVerbatim : Prop :=
  ∀ (s : State) (bytes : List Byte) (offset : Nat), Memory.wf s.mem = true →
    if offset + bytes.length ≤ 4096 then
      ∃ t, s.load bytes offset = .ok t ∧ Memory.wf t.mem = true ∧ t = s.setMem t.mem ∧
        (∀ j b, bytes[j]? = some b → t.byteAt (offset + j) = b) ∧
        ∀ a, (a < offset ∨ offset + bytes.length ≤ a) → t.byteAt a = s.byteAt a
    else ∃ a, s.load bytes offset = .error (.outOfBounds a)

/-- An image of at most 3584 bytes boots: byte `j` stands at 0x200 + j, the first fetch reads its first two bytes high
byte first, and the invariant holds (20_memory.md section 7, 70_reset_and_hazards.md sections 1 and 2; decision D16,
log entry 22). -/
def Obligations.BootPlacesTheImage : Prop :=
  ∀ (hi lo : Byte) (rest : List Byte), rest.length + 2 ≤ 3584 →
    ∃ t, State.boot (hi :: lo :: rest) = .ok t ∧ t.Inv ∧ t.pc = 0x200#16 ∧
      (∀ j b, (hi :: lo :: rest)[j]? = some b → t.byteAt (0x200 + j) = b) ∧
      t.fetch = .ok (wordOfBytes hi lo, t.setPc 0x202#16)

/-- A direct write from outside is bounds-checked, reads back, and changes nothing else: memory, registers,
framebuffer (10_state.md section 7; the error kinds are the model's choice, log entry 24). -/
def Obligations.AccessIsBoundsChecked : Prop :=
  ∀ (s : State) (k : Nat) (b : Byte) (v : Nat), Memory.wf s.mem = true →
    (if k ≤ 0xFFF then
      ∃ t, s.accessWriteMem k b = .ok t ∧ t.memRead1 k = .ok b ∧ Memory.wf t.mem = true ∧ t = s.setMem t.mem ∧
        ∀ a, a ≠ k → t.byteAt a = s.byteAt a
    else s.accessWriteMem k b = .error (.outOfBounds k) ∧ s.memRead1 k = .error (.outOfBounds k)) ∧
    (if k ≤ 15 then
      ∃ t, s.accessWriteV k b = .ok t ∧ t.accessReadV k = .ok b ∧ SameOutsideRegs s t ∧
        ∀ j, j ≤ 15 → j ≠ k → t.accessReadV j = s.accessReadV j
    else s.accessWriteV k b = .error (.outOfBounds k) ∧ s.accessReadV k = .error (.outOfBounds k)) ∧
    (if k ≤ 2047 ∧ v ≤ 1 then
      ∃ t, s.accessWritePixel k v = .ok t ∧ t.accessReadPixel k = .ok v ∧ t = s.setFb t.fb ∧
        ∀ j, j ≠ k → pixelAt t.fb j = pixelAt s.fb j
    else s.accessWritePixel k v = .error (.outOfBounds k))

/-- TIMER_TICK takes 1 from each timer that is not 0, leaves the result at 0 open, and touches nothing else
(60_exceptions.md section 7; decision D17, log entry 23). -/
def Obligations.TimerTickDecrements : Prop :=
  ∀ s : State, (s.dt ≠ 0#8 → s.timerTick.dt.toNat = s.dt.toNat - 1) ∧ (s.st ≠ 0#8 → s.timerTick.st.toNat = s.st.toNat - 1) ∧
    s.timerTick = (s.setDt s.timerTick.dt).setSt s.timerTick.st

/-- FB_VIEW is the 64 by 32 grid of 0/1 values, the pixel at column cx of row cy being FB[cy * 64 + cx]
(10_state.md section 4, 60_exceptions.md section 8). -/
def Obligations.FramebufferViewIsTheGrid : Prop :=
  ∀ s : State, s.fbView.length = 32 ∧ ∀ cy, cy < 32 → ∃ cells, s.fbView[cy]? = some cells ∧ cells.length = 64 ∧
    ∀ cx, cx < 64 → cells[cx]? = some (if pixelAt s.fb (cy * 64 + cx) then 1 else 0)
end

