-- ==== Sys2Proof/Laws/Config.lean ====
section
/-! SUPPORT. The parameters of rule R5 that are sizes are the sizes of the model's types: a claim may name the
parameter and speak of the type. -/

namespace Sys2Proof

/-- Registers, timers and memory cells are XLEN bits wide (R5). -/
theorem byte_width : Byte = BitVec Config.xlen := rfl

/-- I, PC and the call-stack entries are ALEN bits wide (R5). -/
theorem addr_width : Addr = BitVec Config.alen := rfl

/-- Instruction words are ILEN bits wide (R5). -/
theorem word_width : Word = BitVec Config.ilen := rfl

/-- An instruction is the two bytes of `encodeBytes` (R70). -/
theorem encodeBytes_width (i : Instr) : (encodeBytes i).length * Config.xlen = Config.ilen := rfl

/-- A selector names each of the NREGS registers and nothing else (R5, R20). -/
theorem selector_count : 2 ^ 4 = Config.nregs := rfl

/-- State holds NREGS general registers (R5, R20). -/
theorem Machine.State.registers_count (s : State) : s.v.toArray.size = Config.nregs := s.v.size_toArray

/-- The framebuffer has FB_W * FB_H cells (R5, R32). -/
theorem Machine.framebuffer_size : Framebuffer = BitVec (Config.fbW * Config.fbH) := rfl

end Sys2Proof
end

