-- ==== Sys2Proof/Laws/Decode.lean ====
section
/-! SUPPORT. The formats of R72 as numbers, and that each field read from a packed word is the field packed. -/

namespace Sys2Proof

/-- A concatenation as a number. -/
theorem append_toNat {m n : Nat} (a : BitVec m) (b : BitVec n) : (a ++ b).toNat = a.toNat * 2 ^ n + b.toNat := by
  rw [BitVec.toNat_append, ← Nat.shiftLeft_add_eq_or_of_lt b.isLt, Nat.shiftLeft_eq]

theorem packA_toNat (g : Nibble) (nnn : Addr12) : (packA g nnn).toNat = g.toNat * 4096 + nnn.toNat :=
  append_toNat g nnn

theorem packXK_toNat (g : Nibble) (x : RegNo) (kk : Byte) :
    (packXK g x kk).toNat = g.toNat * 4096 + x.toNat * 256 + kk.toNat := by
  refine (append_toNat (g ++ x) kk).trans ?_
  rw [append_toNat]; omega

theorem packXYN_toNat (g : Nibble) (x y : RegNo) (n : Nibble) :
    (packXYN g x y n).toNat = g.toNat * 4096 + x.toNat * 256 + y.toNat * 16 + n.toNat := by
  refine (append_toNat (g ++ x ++ y) n).trans ?_
  rw [append_toNat, append_toNat]; omega

/-! The fields of a word as numbers. -/

theorem fieldGroup_toNat (w : Word) : (fieldGroup w).toNat = w.toNat / 4096 := by
  have := w.isLt
  simp only [fieldGroup, BitVec.extractLsb'_toNat, Nat.shiftRight_eq_div_pow]; omega

theorem fieldX_toNat (w : Word) : (fieldX w).toNat = w.toNat / 256 % 16 := by
  simp only [fieldX, BitVec.extractLsb'_toNat, Nat.shiftRight_eq_div_pow]

theorem fieldY_toNat (w : Word) : (fieldY w).toNat = w.toNat / 16 % 16 := by
  simp only [fieldY, BitVec.extractLsb'_toNat, Nat.shiftRight_eq_div_pow]

theorem fieldN_toNat (w : Word) : (fieldN w).toNat = w.toNat % 16 := by
  simp only [fieldN, BitVec.extractLsb'_toNat, Nat.shiftRight_eq_div_pow]; omega

theorem fieldKK_toNat (w : Word) : (fieldKK w).toNat = w.toNat % 256 := by
  simp only [fieldKK, BitVec.extractLsb'_toNat, Nat.shiftRight_eq_div_pow]; omega

theorem fieldNNN_toNat (w : Word) : (fieldNNN w).toNat = w.toNat % 4096 := by
  simp only [fieldNNN, BitVec.extractLsb'_toNat, Nat.shiftRight_eq_div_pow]; omega

/-! The fields of a packed word. -/

@[simp] theorem fieldGroup_packA (g : Nibble) (nnn : Addr12) : fieldGroup (packA g nnn) = g := by
  apply BitVec.eq_of_toNat_eq
  have := nnn.isLt
  rw [fieldGroup_toNat, packA_toNat]; omega

@[simp] theorem fieldNNN_packA (g : Nibble) (nnn : Addr12) : fieldNNN (packA g nnn) = nnn := by
  apply BitVec.eq_of_toNat_eq
  have := nnn.isLt
  rw [fieldNNN_toNat, packA_toNat]; omega

@[simp] theorem fieldGroup_packXK (g : Nibble) (x : RegNo) (kk : Byte) : fieldGroup (packXK g x kk) = g := by
  apply BitVec.eq_of_toNat_eq
  have := x.isLt; have := kk.isLt
  rw [fieldGroup_toNat, packXK_toNat]; omega

@[simp] theorem fieldX_packXK (g : Nibble) (x : RegNo) (kk : Byte) : fieldX (packXK g x kk) = x := by
  apply BitVec.eq_of_toNat_eq
  have := x.isLt; have := kk.isLt
  rw [fieldX_toNat, packXK_toNat]; omega

@[simp] theorem fieldKK_packXK (g : Nibble) (x : RegNo) (kk : Byte) : fieldKK (packXK g x kk) = kk := by
  apply BitVec.eq_of_toNat_eq
  have := x.isLt; have := kk.isLt
  rw [fieldKK_toNat, packXK_toNat]; omega

@[simp] theorem fieldGroup_packXYN (g : Nibble) (x y : RegNo) (n : Nibble) : fieldGroup (packXYN g x y n) = g := by
  apply BitVec.eq_of_toNat_eq
  have := x.isLt; have := y.isLt; have := n.isLt
  rw [fieldGroup_toNat, packXYN_toNat]; omega

@[simp] theorem fieldX_packXYN (g : Nibble) (x y : RegNo) (n : Nibble) : fieldX (packXYN g x y n) = x := by
  apply BitVec.eq_of_toNat_eq
  have := x.isLt; have := y.isLt; have := n.isLt
  rw [fieldX_toNat, packXYN_toNat]; omega

@[simp] theorem fieldY_packXYN (g : Nibble) (x y : RegNo) (n : Nibble) : fieldY (packXYN g x y n) = y := by
  apply BitVec.eq_of_toNat_eq
  have := x.isLt; have := y.isLt; have := n.isLt
  rw [fieldY_toNat, packXYN_toNat]; omega

@[simp] theorem fieldN_packXYN (g : Nibble) (x y : RegNo) (n : Nibble) : fieldN (packXYN g x y n) = n := by
  apply BitVec.eq_of_toNat_eq
  have := x.isLt; have := y.isLt; have := n.isLt
  rw [fieldN_toNat, packXYN_toNat]; omega

/-- The two stored bytes of a word make the word again, high byte first (R52). -/
@[simp] theorem wordOfBytes_bytes (w : Word) : wordOfBytes (wordHigh w) (wordLow w) = w := by
  apply BitVec.eq_of_toNat_eq
  have := w.isLt
  refine (append_toNat (wordHigh w) (wordLow w)).trans ?_
  simp only [wordHigh, wordLow, BitVec.extractLsb'_toNat, Nat.shiftRight_eq_div_pow]; omega

end Sys2Proof
end

