-- ==== Sys2Proof/Laws/State.lean ====
section
/-! SUPPORT. One lemma per field per update of State, so that no proof unfolds a record update, and what the
derived reads (registers, bytes, `sp`) see of each update. -/

namespace Sys2Proof.Machine

variable (s : State)

/-! `State.setIndex` -/

@[simp] theorem State.setIndex_v (a : Addr) : (s.setIndex a).v = s.v := rfl
@[simp] theorem State.setIndex_index (a : Addr) : (s.setIndex a).index = a := rfl
@[simp] theorem State.setIndex_pc (a : Addr) : (s.setIndex a).pc = s.pc := rfl
@[simp] theorem State.setIndex_stack (a : Addr) : (s.setIndex a).stack = s.stack := rfl
@[simp] theorem State.setIndex_dt (a : Addr) : (s.setIndex a).dt = s.dt := rfl
@[simp] theorem State.setIndex_st (a : Addr) : (s.setIndex a).st = s.st := rfl
@[simp] theorem State.setIndex_fb (a : Addr) : (s.setIndex a).fb = s.fb := rfl
@[simp] theorem State.setIndex_mem (a : Addr) : (s.setIndex a).mem = s.mem := rfl
@[simp] theorem State.setIndex_draws (a : Addr) : (s.setIndex a).draws = s.draws := rfl
@[simp] theorem State.setIndex_report (a : Addr) : (s.setIndex a).report = s.report := rfl

@[simp] theorem State.readV_setIndex (a : Addr) (q : RegNo) : (s.setIndex a).readV q = s.readV q := rfl
@[simp] theorem State.byteAt_setIndex (a : Addr) (k : Nat) : (s.setIndex a).byteAt k = s.byteAt k := rfl
@[simp] theorem State.sp_setIndex (a : Addr) : (s.setIndex a).sp = s.sp := rfl

/-! `State.setPc` -/

@[simp] theorem State.setPc_v (a : Addr) : (s.setPc a).v = s.v := rfl
@[simp] theorem State.setPc_index (a : Addr) : (s.setPc a).index = s.index := rfl
@[simp] theorem State.setPc_pc (a : Addr) : (s.setPc a).pc = a := rfl
@[simp] theorem State.setPc_stack (a : Addr) : (s.setPc a).stack = s.stack := rfl
@[simp] theorem State.setPc_dt (a : Addr) : (s.setPc a).dt = s.dt := rfl
@[simp] theorem State.setPc_st (a : Addr) : (s.setPc a).st = s.st := rfl
@[simp] theorem State.setPc_fb (a : Addr) : (s.setPc a).fb = s.fb := rfl
@[simp] theorem State.setPc_mem (a : Addr) : (s.setPc a).mem = s.mem := rfl
@[simp] theorem State.setPc_draws (a : Addr) : (s.setPc a).draws = s.draws := rfl
@[simp] theorem State.setPc_report (a : Addr) : (s.setPc a).report = s.report := rfl

@[simp] theorem State.readV_setPc (a : Addr) (q : RegNo) : (s.setPc a).readV q = s.readV q := rfl
@[simp] theorem State.byteAt_setPc (a : Addr) (k : Nat) : (s.setPc a).byteAt k = s.byteAt k := rfl
@[simp] theorem State.sp_setPc (a : Addr) : (s.setPc a).sp = s.sp := rfl

/-! `State.setStack` -/

@[simp] theorem State.setStack_v (l : List Addr) : (s.setStack l).v = s.v := rfl
@[simp] theorem State.setStack_index (l : List Addr) : (s.setStack l).index = s.index := rfl
@[simp] theorem State.setStack_pc (l : List Addr) : (s.setStack l).pc = s.pc := rfl
@[simp] theorem State.setStack_stack (l : List Addr) : (s.setStack l).stack = l := rfl
@[simp] theorem State.setStack_dt (l : List Addr) : (s.setStack l).dt = s.dt := rfl
@[simp] theorem State.setStack_st (l : List Addr) : (s.setStack l).st = s.st := rfl
@[simp] theorem State.setStack_fb (l : List Addr) : (s.setStack l).fb = s.fb := rfl
@[simp] theorem State.setStack_mem (l : List Addr) : (s.setStack l).mem = s.mem := rfl
@[simp] theorem State.setStack_draws (l : List Addr) : (s.setStack l).draws = s.draws := rfl
@[simp] theorem State.setStack_report (l : List Addr) : (s.setStack l).report = s.report := rfl

@[simp] theorem State.readV_setStack (l : List Addr) (q : RegNo) : (s.setStack l).readV q = s.readV q := rfl
@[simp] theorem State.byteAt_setStack (l : List Addr) (k : Nat) : (s.setStack l).byteAt k = s.byteAt k := rfl
@[simp] theorem State.sp_setStack (l : List Addr) : (s.setStack l).sp = l.length := rfl

/-! `State.setDt` -/

@[simp] theorem State.setDt_v (b : Byte) : (s.setDt b).v = s.v := rfl
@[simp] theorem State.setDt_index (b : Byte) : (s.setDt b).index = s.index := rfl
@[simp] theorem State.setDt_pc (b : Byte) : (s.setDt b).pc = s.pc := rfl
@[simp] theorem State.setDt_stack (b : Byte) : (s.setDt b).stack = s.stack := rfl
@[simp] theorem State.setDt_dt (b : Byte) : (s.setDt b).dt = b := rfl
@[simp] theorem State.setDt_st (b : Byte) : (s.setDt b).st = s.st := rfl
@[simp] theorem State.setDt_fb (b : Byte) : (s.setDt b).fb = s.fb := rfl
@[simp] theorem State.setDt_mem (b : Byte) : (s.setDt b).mem = s.mem := rfl
@[simp] theorem State.setDt_draws (b : Byte) : (s.setDt b).draws = s.draws := rfl
@[simp] theorem State.setDt_report (b : Byte) : (s.setDt b).report = s.report := rfl

@[simp] theorem State.readV_setDt (b : Byte) (q : RegNo) : (s.setDt b).readV q = s.readV q := rfl
@[simp] theorem State.byteAt_setDt (b : Byte) (k : Nat) : (s.setDt b).byteAt k = s.byteAt k := rfl
@[simp] theorem State.sp_setDt (b : Byte) : (s.setDt b).sp = s.sp := rfl

/-! `State.setSt` -/

@[simp] theorem State.setSt_v (b : Byte) : (s.setSt b).v = s.v := rfl
@[simp] theorem State.setSt_index (b : Byte) : (s.setSt b).index = s.index := rfl
@[simp] theorem State.setSt_pc (b : Byte) : (s.setSt b).pc = s.pc := rfl
@[simp] theorem State.setSt_stack (b : Byte) : (s.setSt b).stack = s.stack := rfl
@[simp] theorem State.setSt_dt (b : Byte) : (s.setSt b).dt = s.dt := rfl
@[simp] theorem State.setSt_st (b : Byte) : (s.setSt b).st = b := rfl
@[simp] theorem State.setSt_fb (b : Byte) : (s.setSt b).fb = s.fb := rfl
@[simp] theorem State.setSt_mem (b : Byte) : (s.setSt b).mem = s.mem := rfl
@[simp] theorem State.setSt_draws (b : Byte) : (s.setSt b).draws = s.draws := rfl
@[simp] theorem State.setSt_report (b : Byte) : (s.setSt b).report = s.report := rfl

@[simp] theorem State.readV_setSt (b : Byte) (q : RegNo) : (s.setSt b).readV q = s.readV q := rfl
@[simp] theorem State.byteAt_setSt (b : Byte) (k : Nat) : (s.setSt b).byteAt k = s.byteAt k := rfl
@[simp] theorem State.sp_setSt (b : Byte) : (s.setSt b).sp = s.sp := rfl

/-! `State.setFb` -/

@[simp] theorem State.setFb_v (f : Framebuffer) : (s.setFb f).v = s.v := rfl
@[simp] theorem State.setFb_index (f : Framebuffer) : (s.setFb f).index = s.index := rfl
@[simp] theorem State.setFb_pc (f : Framebuffer) : (s.setFb f).pc = s.pc := rfl
@[simp] theorem State.setFb_stack (f : Framebuffer) : (s.setFb f).stack = s.stack := rfl
@[simp] theorem State.setFb_dt (f : Framebuffer) : (s.setFb f).dt = s.dt := rfl
@[simp] theorem State.setFb_st (f : Framebuffer) : (s.setFb f).st = s.st := rfl
@[simp] theorem State.setFb_fb (f : Framebuffer) : (s.setFb f).fb = f := rfl
@[simp] theorem State.setFb_mem (f : Framebuffer) : (s.setFb f).mem = s.mem := rfl
@[simp] theorem State.setFb_draws (f : Framebuffer) : (s.setFb f).draws = s.draws := rfl
@[simp] theorem State.setFb_report (f : Framebuffer) : (s.setFb f).report = s.report := rfl

@[simp] theorem State.readV_setFb (f : Framebuffer) (q : RegNo) : (s.setFb f).readV q = s.readV q := rfl
@[simp] theorem State.byteAt_setFb (f : Framebuffer) (k : Nat) : (s.setFb f).byteAt k = s.byteAt k := rfl
@[simp] theorem State.sp_setFb (f : Framebuffer) : (s.setFb f).sp = s.sp := rfl

/-! `State.setMem` -/

@[simp] theorem State.setMem_v (m : Memory) : (s.setMem m).v = s.v := rfl
@[simp] theorem State.setMem_index (m : Memory) : (s.setMem m).index = s.index := rfl
@[simp] theorem State.setMem_pc (m : Memory) : (s.setMem m).pc = s.pc := rfl
@[simp] theorem State.setMem_stack (m : Memory) : (s.setMem m).stack = s.stack := rfl
@[simp] theorem State.setMem_dt (m : Memory) : (s.setMem m).dt = s.dt := rfl
@[simp] theorem State.setMem_st (m : Memory) : (s.setMem m).st = s.st := rfl
@[simp] theorem State.setMem_fb (m : Memory) : (s.setMem m).fb = s.fb := rfl
@[simp] theorem State.setMem_mem (m : Memory) : (s.setMem m).mem = m := rfl
@[simp] theorem State.setMem_draws (m : Memory) : (s.setMem m).draws = s.draws := rfl
@[simp] theorem State.setMem_report (m : Memory) : (s.setMem m).report = s.report := rfl

@[simp] theorem State.readV_setMem (m : Memory) (q : RegNo) : (s.setMem m).readV q = s.readV q := rfl
@[simp] theorem State.byteAt_setMem (m : Memory) (k : Nat) : (s.setMem m).byteAt k = Memory.read m k := rfl
@[simp] theorem State.sp_setMem (m : Memory) : (s.setMem m).sp = s.sp := rfl

/-! `State.setDraws` -/

@[simp] theorem State.setDraws_v (k : Nat) : (s.setDraws k).v = s.v := rfl
@[simp] theorem State.setDraws_index (k : Nat) : (s.setDraws k).index = s.index := rfl
@[simp] theorem State.setDraws_pc (k : Nat) : (s.setDraws k).pc = s.pc := rfl
@[simp] theorem State.setDraws_stack (k : Nat) : (s.setDraws k).stack = s.stack := rfl
@[simp] theorem State.setDraws_dt (k : Nat) : (s.setDraws k).dt = s.dt := rfl
@[simp] theorem State.setDraws_st (k : Nat) : (s.setDraws k).st = s.st := rfl
@[simp] theorem State.setDraws_fb (k : Nat) : (s.setDraws k).fb = s.fb := rfl
@[simp] theorem State.setDraws_mem (k : Nat) : (s.setDraws k).mem = s.mem := rfl
@[simp] theorem State.setDraws_draws (k : Nat) : (s.setDraws k).draws = k := rfl
@[simp] theorem State.setDraws_report (k : Nat) : (s.setDraws k).report = s.report := rfl

@[simp] theorem State.readV_setDraws (k : Nat) (q : RegNo) : (s.setDraws k).readV q = s.readV q := rfl
@[simp] theorem State.byteAt_setDraws (k j : Nat) : (s.setDraws k).byteAt j = s.byteAt j := rfl
@[simp] theorem State.sp_setDraws (k : Nat) : (s.setDraws k).sp = s.sp := rfl

/-! `State.setReport` -/

@[simp] theorem State.setReport_v (r : Option CycleResult) : (s.setReport r).v = s.v := rfl
@[simp] theorem State.setReport_index (r : Option CycleResult) : (s.setReport r).index = s.index := rfl
@[simp] theorem State.setReport_pc (r : Option CycleResult) : (s.setReport r).pc = s.pc := rfl
@[simp] theorem State.setReport_stack (r : Option CycleResult) : (s.setReport r).stack = s.stack := rfl
@[simp] theorem State.setReport_dt (r : Option CycleResult) : (s.setReport r).dt = s.dt := rfl
@[simp] theorem State.setReport_st (r : Option CycleResult) : (s.setReport r).st = s.st := rfl
@[simp] theorem State.setReport_fb (r : Option CycleResult) : (s.setReport r).fb = s.fb := rfl
@[simp] theorem State.setReport_mem (r : Option CycleResult) : (s.setReport r).mem = s.mem := rfl
@[simp] theorem State.setReport_draws (r : Option CycleResult) : (s.setReport r).draws = s.draws := rfl
@[simp] theorem State.setReport_report (r : Option CycleResult) : (s.setReport r).report = r := rfl

@[simp] theorem State.readV_setReport (r : Option CycleResult) (q : RegNo) : (s.setReport r).readV q = s.readV q := rfl
@[simp] theorem State.byteAt_setReport (r : Option CycleResult) (k : Nat) : (s.setReport r).byteAt k = s.byteAt k := rfl
@[simp] theorem State.sp_setReport (r : Option CycleResult) : (s.setReport r).sp = s.sp := rfl

/-! `State.writeV` -/

@[simp] theorem State.writeV_index (x : RegNo) (b : Byte) : (s.writeV x b).index = s.index := rfl
@[simp] theorem State.writeV_pc (x : RegNo) (b : Byte) : (s.writeV x b).pc = s.pc := rfl
@[simp] theorem State.writeV_stack (x : RegNo) (b : Byte) : (s.writeV x b).stack = s.stack := rfl
@[simp] theorem State.writeV_dt (x : RegNo) (b : Byte) : (s.writeV x b).dt = s.dt := rfl
@[simp] theorem State.writeV_st (x : RegNo) (b : Byte) : (s.writeV x b).st = s.st := rfl
@[simp] theorem State.writeV_fb (x : RegNo) (b : Byte) : (s.writeV x b).fb = s.fb := rfl
@[simp] theorem State.writeV_mem (x : RegNo) (b : Byte) : (s.writeV x b).mem = s.mem := rfl
@[simp] theorem State.writeV_draws (x : RegNo) (b : Byte) : (s.writeV x b).draws = s.draws := rfl
@[simp] theorem State.writeV_report (x : RegNo) (b : Byte) : (s.writeV x b).report = s.report := rfl

@[simp] theorem State.byteAt_writeV (x : RegNo) (b : Byte) (k : Nat) : (s.writeV x b).byteAt k = s.byteAt k := rfl
@[simp] theorem State.sp_writeV (x : RegNo) (b : Byte) : (s.writeV x b).sp = s.sp := rfl

@[simp] theorem State.readV_writeV_same (x : RegNo) (b : Byte) : (s.writeV x b).readV x = b := by
  simp [State.readV, State.writeV]

@[simp] theorem State.readV_writeV_of_ne {x r : RegNo} (h : r ≠ x) (b : Byte) :
    (s.writeV x b).readV r = s.readV r := by
  have hn : x.toNat ≠ r.toNat := fun e => h (BitVec.eq_of_toNat_eq e.symm)
  simp only [State.readV, State.writeV]
  exact Vector.getElem_set_ne _ _ hn

/-- A register after a write, whichever it is. -/
theorem State.readV_writeV (x r : RegNo) (b : Byte) : (s.writeV x b).readV r = if r = x then b else s.readV r := by
  by_cases h : r = x
  · subst h; simp
  · simp [h]

/-- Two states are equal when their registers and all other fields are. -/
theorem State.ext_readV {s t : State} (hv : ∀ r, t.readV r = s.readV r) (hi : t.index = s.index) (hp : t.pc = s.pc)
    (hs : t.stack = s.stack) (hd : t.dt = s.dt) (ht : t.st = s.st) (hf : t.fb = s.fb) (hm : t.mem = s.mem)
    (hk : t.draws = s.draws) (hr : t.report = s.report) : t = s := by
  have hv' : t.v = s.v := by
    apply Vector.ext
    intro i hi
    have h := hv (BitVec.ofNat 4 i)
    have hm : i % 16 = i := Nat.mod_eq_of_lt hi
    simpa [State.readV, BitVec.toNat_ofNat, hm] using h
  cases s; cases t; simp_all

/-! Updates of different fields commute; a later update of the same field wins. -/

theorem State.setReport_setReport (r q : Option CycleResult) : (s.setReport r).setReport q = s.setReport q := rfl
theorem State.writeV_setReport (x : RegNo) (b : Byte) (r : Option CycleResult) :
    (s.setReport r).writeV x b = (s.writeV x b).setReport r := rfl

end Sys2Proof.Machine
end

