-- ==== Sys2Proof/Laws/Flags.lean ====
section
/-! SUPPORT. What the 8-bit arithmetic and the flags are as numbers, and what the flag-write template leaves in each
register. -/

namespace Sys2Proof.Machine

@[simp] theorem flagByte_toNat (b : Bool) : (flagByte b).toNat = if b then 1 else 0 := by cases b <;> rfl

theorem addBytes_toNat (a b : Byte) : (addBytes a b).toNat = (a.toNat + b.toNat) % 256 := by
  simp [addBytes, BitVec.toNat_ofNat]

theorem subBytes_toNat (a b : Byte) : (subBytes a b).toNat = (256 + a.toNat - b.toNat) % 256 := by
  have ha := a.isLt
  have hb := b.isLt
  simp only [subBytes, BitVec.toNat_ofInt]
  omega

theorem shiftRightByte_toNat (a : Byte) : (shiftRightByte a).toNat = a.toNat / 2 := by
  simp [shiftRightByte, BitVec.toNat_ushiftRight, Nat.shiftRight_eq_div_pow]

theorem shiftLeftByte_toNat (a : Byte) : (shiftLeftByte a).toNat = a.toNat * 2 % 256 := by
  simp [shiftLeftByte, BitVec.toNat_shiftLeft, Nat.shiftLeft_eq]

theorem carry_eq (a b : Byte) : carry a b = decide (a.toNat + b.toNat > 255) := rfl
theorem noBorrow_eq (a b : Byte) : noBorrow a b = decide (b.toNat ≤ a.toNat) := rfl

/-- Bit 0 as a number. -/
theorem bitZero_toNat (a : Byte) : (if bitZero a then 1 else 0) = a.toNat % 2 := by
  have := Nat.mod_two_eq_zero_or_one a.toNat
  simp only [bitZero, BitVec.getLsbD, Nat.testBit_zero]
  rcases this with h | h <;> simp [h]

/-- Bit 7 as a number. -/
theorem bitSeven_toNat (a : Byte) : (if bitSeven a then 1 else 0) = a.toNat / 128 := by
  have h := a.isLt
  have hd : a.toNat / 128 = 0 ∨ a.toNat / 128 = 1 := by omega
  simp only [bitSeven, BitVec.getLsbD, Nat.testBit_eq_decide_div_mod_eq]
  rcases hd with e | e <;> simp [e]

/-- VF after the flag-write template holds the flag, whatever the destination was. -/
@[simp] theorem State.readV_writeResultFlag_flag (s : State) (x : RegNo) (b : Byte) (f : Bool) :
    (s.writeResultFlag x b f).readV 15#4 = flagByte f := by
  simp [State.writeResultFlag, State.writeFlag, Config.flagReg]

/-- The destination holds the result unless it is VF. -/
theorem State.readV_writeResultFlag_dest (s : State) {x : RegNo} (hx : x ≠ 15#4) (b : Byte) (f : Bool) :
    (s.writeResultFlag x b f).readV x = b := by
  simp [State.writeResultFlag, State.writeFlag, Config.flagReg, hx]

/-- Every other register is left alone. -/
theorem State.readV_writeResultFlag_other (s : State) {x r : RegNo} (hr : r ≠ x) (hf : r ≠ 15#4) (b : Byte) (f : Bool) :
    (s.writeResultFlag x b f).readV r = s.readV r := by
  simp [State.writeResultFlag, State.writeFlag, Config.flagReg, hr, hf]

end Sys2Proof.Machine
end

