-- ==== Sys2Proof/Laws/Draw.lean ====
section
/-! SUPPORT. The laws of the framebuffer and of the sprite loop of draw. -/

namespace Sys2Proof.Machine

/-- Toggling a cell of the framebuffer changes that cell and no other. -/
theorem pixelAt_togglePixel (f : Framebuffer) (k j : Nat) (hk : k < 2048) :
    pixelAt (togglePixel f k) j = (pixelAt f j ^^ decide (j = k)) := by
  simp only [pixelAt, togglePixel, BitVec.getLsbD_xor, BitVec.getLsbD_twoPow]
  by_cases h : j = k
  · subst h; simp [hk]
  · simp [h, Ne.symm h]

/-- The cell of a sprite pixel, and that it is a cell of the framebuffer. -/
theorem pixelCell_eq (vx vy row col : Nat) : pixelCell vx vy row col = (vy + row) % 32 * 64 + (vx + col) % 64 := rfl

theorem pixelCell_lt (vx vy row col : Nat) : pixelCell vx vy row col < 2048 := by
  rw [pixelCell_eq]; omega

/-- No two pixels of one sprite land on the same cell (R176 (a)). -/
theorem pixelCell_inj {vx vy r c r' c' : Nat} (hr : r < 32) (hr' : r' < 32) (hc : c < 64) (hc' : c' < 64)
    (h : pixelCell vx vy r c = pixelCell vx vy r' c') : r = r' ∧ c = c' := by
  rw [pixelCell_eq, pixelCell_eq] at h
  omega

/-- One sprite pixel flips its cell exactly when its bit is 1, leaves every other cell, and adds its collision. -/
theorem plotPixel_spec (bit : Bool) {k : Nat} (hk : k < 2048) (c : Canvas) :
    (∀ j, pixelAt (plotPixel bit k c).fb j = (pixelAt c.fb j ^^ (bit && decide (j = k)))) ∧
      (plotPixel bit k c).collision = (c.collision || (bit && pixelAt c.fb k)) := by
  refine ⟨fun j => ?_, rfl⟩
  cases bit
  · simp [plotPixel]
  · simp [plotPixel, pixelAt_togglePixel _ _ _ hk]

/-- The first `m` columns of a sprite row: each cell is XORed with its bit, no other cell changes, and a collision is
a bit 1 over a cell that was 1 before. -/
theorem plotCols_spec (vx vy row : Nat) (b : Byte) (c : Canvas) : ∀ m, m ≤ 8 →
    let d := (List.range m).foldl (fun c col => plotPixel (spriteBit b col) (pixelCell vx vy row col) c) c
    (∀ col, col < m → pixelAt d.fb (pixelCell vx vy row col) =
        (pixelAt c.fb (pixelCell vx vy row col) ^^ spriteBit b col)) ∧
      (∀ j, (∀ col, col < m → j ≠ pixelCell vx vy row col) → pixelAt d.fb j = pixelAt c.fb j) ∧
      (d.collision = true ↔ c.collision = true ∨
        ∃ col, col < m ∧ spriteBit b col = true ∧ pixelAt c.fb (pixelCell vx vy row col) = true) := by
  intro m
  induction m with
  | zero => intro _; simp
  | succ m ih =>
    intro hm
    obtain ⟨ih1, ih2, ih3⟩ := ih (by omega)
    simp only [List.range_succ, List.foldl_append, List.foldl_cons, List.foldl_nil]
    generalize (List.range m).foldl _ c = d at ih1 ih2 ih3 ⊢
    obtain ⟨p1, p2⟩ := plotPixel_spec (spriteBit b m) (pixelCell_lt vx vy row m) d
    have hcell : ∀ col, col < 8 → col ≠ m → pixelCell vx vy row col ≠ pixelCell vx vy row m := by
      intro col h hne e
      rw [pixelCell_eq, pixelCell_eq] at e
      omega
    have hold : pixelAt d.fb (pixelCell vx vy row m) = pixelAt c.fb (pixelCell vx vy row m) :=
      ih2 _ fun col h => (hcell col (by omega) (by omega)).symm
    refine ⟨fun col h => ?_, fun j h => ?_, ?_⟩
    · rw [p1]
      by_cases e : col = m
      · subst e; simp [hold]
      · simp [hcell col (by omega) e, ih1 col (by omega)]
    · rw [p1, ih2 j fun col hc => h col (by omega)]
      simp [h m (by omega)]
    · rw [p2, Bool.or_eq_true, Bool.and_eq_true, ih3, hold]
      constructor
      · rintro ((h | ⟨col, h, hb⟩) | hb)
        · exact .inl h
        · exact .inr ⟨col, by omega, hb⟩
        · exact .inr ⟨m, by omega, hb⟩
      · rintro (h | ⟨col, h, hb⟩)
        · exact .inl (.inl h)
        · rcases Nat.lt_succ_iff_lt_or_eq.mp h with h | rfl
          · exact .inl (.inr ⟨col, h, hb⟩)
          · exact .inr hb

/-- A whole sprite row. -/
theorem plotRow_spec (vx vy row : Nat) (b : Byte) (c : Canvas) :
    (∀ col, col < 8 → pixelAt (plotRow vx vy row b c).fb (pixelCell vx vy row col) =
        (pixelAt c.fb (pixelCell vx vy row col) ^^ spriteBit b col)) ∧
      (∀ j, (∀ col, col < 8 → j ≠ pixelCell vx vy row col) → pixelAt (plotRow vx vy row b c).fb j = pixelAt c.fb j) ∧
      ((plotRow vx vy row b c).collision = true ↔ c.collision = true ∨
        ∃ col, col < 8 ∧ spriteBit b col = true ∧ pixelAt c.fb (pixelCell vx vy row col) = true) :=
  plotCols_spec vx vy row b c 8 (Nat.le_refl 8)

/-- The whole sprite loop, from row number `row` on: each sprite pixel's cell is XORed with its bit, no other cell
changes, and a collision is a bit 1 over a cell that was 1 before the loop (R172, R176). -/
theorem plotRows_spec (vx vy : Nat) : ∀ (bytes : List Byte) (row : Nat) (c : Canvas), row + bytes.length ≤ 32 →
    let d := plotRows vx vy row bytes c
    (∀ i b col, bytes[i]? = some b → col < 8 → pixelAt d.fb (pixelCell vx vy (row + i) col) =
        (pixelAt c.fb (pixelCell vx vy (row + i) col) ^^ spriteBit b col)) ∧
      (∀ j, (∀ i col, i < bytes.length → col < 8 → j ≠ pixelCell vx vy (row + i) col) →
        pixelAt d.fb j = pixelAt c.fb j) ∧
      (d.collision = true ↔ c.collision = true ∨ ∃ i b col, bytes[i]? = some b ∧ col < 8 ∧
        spriteBit b col = true ∧ pixelAt c.fb (pixelCell vx vy (row + i) col) = true)
  | [], row, c, _ => by simp [plotRows]
  | b :: rest, row, c, hlen => by
    simp only [List.length_cons] at hlen
    obtain ⟨q1, q2, q3⟩ := plotRow_spec vx vy row b c
    obtain ⟨r1, r2, r3⟩ := plotRows_spec vx vy rest (row + 1) (plotRow vx vy row b c) (by omega)
    have shift : ∀ i, row + 1 + i = row + (i + 1) := fun i => by omega
    have other : ∀ i col, i < rest.length → col < 8 → ∀ col', col' < 8 →
        pixelCell vx vy (row + (i + 1)) col ≠ pixelCell vx vy row col' := by
      intro i col hi hc col' hc' e
      have := (pixelCell_inj (by omega) (by omega) (by omega) (by omega) e).1
      omega
    have lenOf : ∀ {i : Nat} {b' : Byte}, rest[i]? = some b' → i < rest.length := fun h =>
      (List.getElem?_eq_some_iff.mp h).1
    refine ⟨fun i b' col hb hc => ?_, fun j h => ?_, ?_⟩
    · cases i with
      | zero =>
        simp only [List.getElem?_cons_zero, Option.some.injEq] at hb
        subst hb
        rw [Nat.add_zero, plotRows, r2, q1 col hc]
        intro i' col' hi' hc'
        rw [shift]
        exact (other i' col' hi' hc' col hc).symm
      | succ i =>
        simp only [List.getElem?_cons_succ] at hb
        rw [plotRows, ← shift i, r1 i b' col hb hc, q2]
        intro col' hc'
        rw [shift]
        exact other i col (lenOf hb) hc col' hc'
    · rw [plotRows, r2 j (fun i col hi hc => by rw [shift]; exact h (i + 1) col (by simpa using hi) hc),
        q2 j (fun col hc => h 0 col (by simp) hc)]
    · rw [plotRows, r3, q3]
      constructor
      · rintro ((h | ⟨col, hc, hb, hp⟩) | ⟨i, b', col, hi, hc, hb, hp⟩)
        · exact .inl h
        · exact .inr ⟨0, b, col, rfl, hc, hb, hp⟩
        · refine .inr ⟨i + 1, b', col, by simpa using hi, hc, hb, ?_⟩
          rw [← shift i, ← q2 _ fun col' hc' => by rw [shift]; exact other i col (lenOf hi) hc col' hc']
          exact hp
      · rintro (h | ⟨i, b', col, hi, hc, hb, hp⟩)
        · exact .inl (.inl h)
        · cases i with
          | zero =>
            simp only [List.getElem?_cons_zero, Option.some.injEq] at hi
            subst hi
            exact .inl (.inr ⟨col, hc, hb, hp⟩)
          | succ i =>
            simp only [List.getElem?_cons_succ] at hi
            refine .inr ⟨i, b', col, hi, hc, hb, ?_⟩
            rw [q2 _ fun col' hc' => by rw [shift]; exact other i col (lenOf hi) hc col' hc', shift]
            exact hp

end Sys2Proof.Machine
end

