-- ==== Sys2Proof/Laws/Ops.lean ====
section
/-! SUPPORT. One lemma per shared operation, saying once everything it can do; proofs cite it and do not unfold the
operation. -/

namespace Sys2Proof.Machine

/-! ## The end of EXECUTE and errors -/

theorem finish_eq (s : State) : finish s = .next (s.setReport (some .ok)) := rfl
theorem raise_eq (e : MachineError) (s : State) : raise e s = .next (s.setReport (some (.execErr e))) := rfl
theorem raiseFetch_eq (e : MachineError) (s : State) : raiseFetch e s = .next (s.setReport (some (.fetchErr e))) := rfl

/-- A skip always completes; it moves PC by 2 when its condition holds and else leaves the state as it is. -/
theorem skipIf_eq (c : Bool) (s : State) :
    skipIf c s = .next ((s.setPc (if c then s.pc + 2#16 else s.pc)).setReport (some .ok)) := by
  cases c <;> rfl

/-! ## Reads of memory, and FETCH -/

/-- Two bytes are read exactly when the first address is at most 0xFFE. -/
theorem State.memRead2_eq (s : State) (a : Nat) :
    s.memRead2 a = if a ≤ 0xFFE then .ok (wordOfBytes (s.byteAt a) (s.byteAt (a + 1))) else .error (.outOfBounds a) := by
  unfold State.memRead2 Config.memSize
  by_cases h : a ≤ 0xFFE
  · rw [if_neg (by omega), if_pos h]
  · rw [if_pos (by omega), if_neg h]

/-- One byte is read exactly when its address is at most 0xFFF. -/
theorem State.memRead1_eq (s : State) (a : Nat) :
    s.memRead1 a = if a ≤ 0xFFF then .ok (s.byteAt a) else .error (.outOfBounds a) := by
  unfold State.memRead1 Config.memSize
  by_cases h : a ≤ 0xFFF
  · rw [if_neg (by omega), if_pos h]
  · rw [if_pos (by omega), if_neg h]

/-- The word of two bytes as a number: the first byte is the high one. -/
theorem wordOfBytes_toNat (hi lo : Byte) : (wordOfBytes hi lo).toNat = hi.toNat * 256 + lo.toNat := by
  have h := lo.isLt
  simp only [wordOfBytes, BitVec.toNat_append, Nat.shiftLeft_eq]
  rw [← Nat.shiftLeft_eq, ← Nat.shiftLeft_add_eq_or_of_lt h, Nat.shiftLeft_eq]

/-! ## The call stack -/

/-- A push below full depth. -/
theorem State.push_of_lt {s : State} (h : s.sp < Config.stackDepth) (a : Addr) : s.push a = .ok (s.setStack (a :: s.stack)) := by
  simp [State.push, Nat.not_le.mpr h]

/-- A push at full depth. -/
theorem State.push_of_le {s : State} (h : Config.stackDepth ≤ s.sp) (a : Addr) : s.push a = .error .stackOverflow := by
  simp [State.push, h]

/-- A pop of an empty stack, and of one with a newest entry. -/
theorem State.pop_of_nil {s : State} (h : s.stack = []) : s.pop = .error .stackUnderflow := by
  simp [State.pop, h]

theorem State.pop_of_cons {s : State} {a : Addr} {rest : List Addr} (h : s.stack = a :: rest) :
    s.pop = .ok (a, s.setStack rest) := by
  simp [State.pop, h]

/-- The newest entry, and the entries below it, after a push. -/
theorem State.stackCell_push (s : State) (a : Addr) (i : Nat) :
    (s.setStack (a :: s.stack)).stackCell i = if i < s.sp then s.stackCell i else if i = s.sp then some a else none := by
  have hlen : s.stack.reverse.length = s.sp := List.length_reverse
  simp only [State.stackCell, State.setStack_stack, List.reverse_cons]
  rcases Nat.lt_trichotomy i s.sp with h | h | h
  · rw [if_pos h, List.getElem?_append_left (by omega)]
  · rw [if_neg (by omega), if_pos h, List.getElem?_append_right (by omega), h, hlen]; simp
  · rw [if_neg (by omega), if_neg (by omega), List.getElem?_eq_none (by simp [hlen]; omega)]

end Sys2Proof.Machine
end

