-- ==== Sys2Proof/Laws/Exec.lean ====
section
/-! SUPPORT. What EXECUTE can do, said once: it completes, or it raises and leaves its state alone. -/

namespace Sys2Proof.Machine

/-- The sprite of draw reaches beyond memory exactly when rule R172 says so. -/
theorem State.spriteOutside_iff (s : State) (n : Nat) :
    s.spriteOutside n = true ↔ n > 0 ∧ s.index.toNat + n - 1 > 0xFFF := by
  unfold State.spriteOutside State.spriteAddress
  rw [Bool.and_eq_true, decide_eq_true_iff, decide_eq_true_iff]
  unfold Config.memSize
  omega

/-- The bytes of a sprite, row by row (R171). -/
theorem State.spriteBytes_getElem? (s : State) (n i : Nat) (b : Byte) :
    (s.spriteBytes n)[i]? = some b ↔ i < n ∧ s.byteAt (s.index.toNat + i) = b := by
  simp only [State.spriteBytes, List.getElem?_map, State.spriteAddress]
  by_cases h : i < n <;> simp [h]

/-- EXECUTE answers a next state that reports Ok, or raises (R102, R103). -/
theorem exec_cases (i : Instr) (s : State) :
    (∃ t, exec i s = .next t ∧ t.report = some .ok) ∨ ∃ e, exec i s = raise e s := by
  cases i with
  | ret =>
    simp only [exec, execReturn]
    cases hs : s.stack with
    | nil => rw [State.pop_of_nil hs]; exact .inr ⟨_, rfl⟩
    | cons a rest => rw [State.pop_of_cons hs]; exact .inl ⟨_, rfl, rfl⟩
  | call nnn =>
    simp only [exec, execCall]
    by_cases h : s.sp < Config.stackDepth
    · rw [State.push_of_lt h]; exact .inl ⟨_, rfl, rfl⟩
    · rw [State.push_of_le (Nat.le_of_not_lt h)]; exact .inr ⟨_, rfl⟩
  | jumpOffset nnn =>
    simp only [exec, execJumpOffset]
    split
    · exact .inr ⟨_, rfl⟩
    · exact .inl ⟨_, rfl, rfl⟩
  | draw x y n =>
    simp only [exec, execDraw]
    split
    · exact .inr ⟨_, rfl⟩
    · exact .inl ⟨_, rfl, rfl⟩
  | skipEqImm | skipNeqImm | skipEqReg | skipNeqReg => exact .inl ⟨_, skipIf_eq _ _, rfl⟩
  | clearDisplay | jump | loadImm | addImm | loadReg | orReg | andReg | xorReg | addReg | subReg | shiftRight
  | subnReg | shiftLeft | loadIndex | random => exact .inl ⟨_, rfl, rfl⟩

end Sys2Proof.Machine
end

