-- ==== Sys2Proof/Laws/Memory.lean ====
section
/-! SUPPORT. The laws of memory: a byte written reads back, every other byte is left alone, and every memory
operation keeps the canonical form. -/

namespace Sys2Proof.Machine

/-- A canonical form from a higher address on is one from a lower address on. -/
theorem Memory.wfFrom_mono {lo hi : Nat} (h : lo ≤ hi) : ∀ {m : Memory}, Memory.wfFrom hi m = true → Memory.wfFrom lo m = true
  | [], _ => rfl
  | (a, b) :: rest, hm => by
    simp only [Memory.wfFrom, Bool.and_eq_true, decide_eq_true_eq] at hm ⊢
    exact ⟨⟨⟨by omega, hm.1.1.2⟩, hm.1.2⟩, hm.2⟩

/-- Below its first address a canonical memory reads 0. -/
theorem Memory.read_of_wfFrom {lo k : Nat} (h : k < lo) : ∀ {m : Memory}, Memory.wfFrom lo m = true → Memory.read m k = 0#8
  | [], _ => rfl
  | (a, b) :: rest, hm => by
    simp only [Memory.wfFrom, Bool.and_eq_true, decide_eq_true_eq] at hm
    have hne : a ≠ k := by omega
    simp only [Memory.read, hne, if_false]
    exact Memory.read_of_wfFrom (by omega) hm.2

/-- Writing one address leaves every other address alone, in any memory. -/
theorem Memory.read_write_ne {k j : Nat} (h : j ≠ k) (b : Byte) :
    ∀ m : Memory, Memory.read (Memory.write m k b) j = Memory.read m j
  | [] => by
    by_cases hb : b = 0#8 <;> simp [Memory.write, Memory.read, hb, h.symm]
  | (a, c) :: rest => by
    have ih := Memory.read_write_ne h b rest
    simp only [Memory.write]
    split
    · split <;> simp [Memory.read, h.symm]
    · split
      · next hk => subst hk; split <;> simp [Memory.read, h.symm]
      · simp [Memory.read, ih]

/-- A byte written into a canonical memory reads back. -/
theorem Memory.read_write_same {lo k : Nat} (b : Byte) :
    ∀ {m : Memory}, Memory.wfFrom lo m = true → Memory.read (Memory.write m k b) k = b
  | [], _ => by
    by_cases hb : b = 0#8 <;> simp [Memory.write, Memory.read, hb]
  | (a, c) :: rest, hm => by
    simp only [Memory.wfFrom, Bool.and_eq_true, decide_eq_true_eq] at hm
    simp only [Memory.write]
    split
    · next hlt =>
      split
      · next hb =>
        subst hb
        have hne : a ≠ k := by omega
        simp only [Memory.read, hne, if_false]
        exact Memory.read_of_wfFrom (by omega) hm.2
      · simp [Memory.read]
    · split
      · next hk =>
        split
        · next hb => subst hb; subst hk; exact Memory.read_of_wfFrom (by omega) hm.2
        · simp [Memory.read]
      · next hk =>
        have hne : a ≠ k := fun e => hk e.symm
        simp only [Memory.read, hne, if_false]
        exact Memory.read_write_same b hm.2

/-- A write inside memory keeps the canonical form. -/
theorem Memory.wfFrom_write {lo k : Nat} (hlo : lo ≤ k) (hk : k < Config.memSize) (b : Byte) :
    ∀ {m : Memory}, Memory.wfFrom lo m = true → Memory.wfFrom lo (Memory.write m k b) = true
  | [], _ => by
    by_cases hb : b = 0#8 <;> simp [Memory.write, Memory.wfFrom, hb, hlo, hk]
  | (a, c) :: rest, hm => by
    have hm' := hm
    simp only [Memory.wfFrom, Bool.and_eq_true, decide_eq_true_eq] at hm
    simp only [Memory.write]
    split
    · split
      · exact hm'
      · next hlt hb =>
        simp only [Memory.wfFrom, Bool.and_eq_true, decide_eq_true_eq]
        exact ⟨⟨⟨hlo, hk⟩, hb⟩, ⟨⟨⟨by omega, hm.1.1.2⟩, hm.1.2⟩, hm.2⟩⟩
    · split
      · split
        · next hka _ => exact Memory.wfFrom_mono (by omega) hm.2
        · next hka hb =>
          simp only [Memory.wfFrom, Bool.and_eq_true, decide_eq_true_eq]
          exact ⟨⟨⟨hlo, hk⟩, hb⟩, hka ▸ hm.2⟩
      · simp only [Memory.wfFrom, Bool.and_eq_true, decide_eq_true_eq]
        exact ⟨hm.1, Memory.wfFrom_write (by omega) hk b hm.2⟩

/-- A write inside memory keeps the canonical form of the whole. -/
theorem Memory.wf_write {m : Memory} {k : Nat} (hk : k < Config.memSize) (b : Byte) (h : Memory.wf m = true) :
    Memory.wf (Memory.write m k b) = true :=
  Memory.wfFrom_write (Nat.zero_le k) hk b h

/-- Copying bytes that fit keeps the canonical form. -/
theorem Memory.wf_writeBytes : ∀ (bytes : List Byte) {m : Memory} {a : Nat}, a + bytes.length ≤ Config.memSize →
    Memory.wf m = true → Memory.wf (Memory.writeBytes m a bytes) = true
  | [], _, _, _, h => h
  | b :: rest, m, a, hfit, h => by
    simp only [List.length_cons] at hfit
    exact Memory.wf_writeBytes rest (by omega) (Memory.wf_write (by omega) b h)

/-- Reset memory, which lists nothing, is canonical. -/
theorem Memory.wf_reset : Memory.wf State.reset.mem = true := rfl

end Sys2Proof.Machine
end

