-- ==== Sys2Proof/Laws/PerInstr.lean ====
section
/-! SUPPORT. Per instruction, about its syntax and encoding: the canonical word lies in the instruction's own group
and, in group 8, carries the instruction's own function nibble (R72, R75, R77). -/

namespace Sys2Proof.Laws.CanonicalWord

/-- The top nibble of the instruction's encoding (R75). -/
def groupOf : Instr → Nibble
  | .clearDisplay | .ret => 0x0#4
  | .jump _ => 0x1#4
  | .call _ => 0x2#4
  | .skipEqImm _ _ => 0x3#4
  | .skipNeqImm _ _ => 0x4#4
  | .skipEqReg _ _ => 0x5#4
  | .loadImm _ _ => 0x6#4
  | .addImm _ _ => 0x7#4
  | .loadReg _ _ | .orReg _ _ | .andReg _ _ | .xorReg _ _ | .addReg _ _ | .subReg _ _ | .shiftRight _
  | .subnReg _ _ | .shiftLeft _ => 0x8#4
  | .skipNeqReg _ _ => 0x9#4
  | .loadIndex _ => 0xA#4
  | .jumpOffset _ => 0xB#4
  | .random _ _ => 0xC#4
  | .draw _ _ _ => 0xD#4

/-- The function nibble of a group 8 instruction (R77). -/
def functionOf : Instr → Option Nibble
  | .loadReg _ _ => some 0x0#4
  | .orReg _ _ => some 0x1#4
  | .andReg _ _ => some 0x2#4
  | .xorReg _ _ => some 0x3#4
  | .addReg _ _ => some 0x4#4
  | .subReg _ _ => some 0x5#4
  | .shiftRight _ => some 0x6#4
  | .subnReg _ _ => some 0x7#4
  | .shiftLeft _ => some 0xE#4
  | .clearDisplay | .ret | .jump _ | .call _ | .skipEqImm _ _ | .skipNeqImm _ _ | .skipEqReg _ _ | .loadImm _ _
  | .addImm _ _ | .skipNeqReg _ _ | .loadIndex _ | .jumpOffset _ | .random _ _ | .draw _ _ _ => none

/-- The canonical word has the instruction's group and, where it has one, its function nibble. -/
def Statement (i : Instr) : Prop :=
  fieldGroup (encode i) = groupOf i ∧ ∀ f, functionOf i = some f → fieldN (encode i) = f

theorem clearDisplay : Statement .clearDisplay := ⟨by decide, by simp [functionOf]⟩
theorem ret : Statement .ret := ⟨by decide, by simp [functionOf]⟩
theorem jump (nnn : Addr12) : Statement (.jump nnn) := by simp [Statement, encode, groupOf, functionOf]
theorem call (nnn : Addr12) : Statement (.call nnn) := by simp [Statement, encode, groupOf, functionOf]
theorem skipEqImm (x : RegNo) (kk : Byte) : Statement (.skipEqImm x kk) := by simp [Statement, encode, groupOf, functionOf]
theorem skipNeqImm (x : RegNo) (kk : Byte) : Statement (.skipNeqImm x kk) := by simp [Statement, encode, groupOf, functionOf]
theorem skipEqReg (x : RegNo) (y : RegNo) : Statement (.skipEqReg x y) := by simp [Statement, encode, groupOf, functionOf]
theorem loadImm (x : RegNo) (kk : Byte) : Statement (.loadImm x kk) := by simp [Statement, encode, groupOf, functionOf]
theorem addImm (x : RegNo) (kk : Byte) : Statement (.addImm x kk) := by simp [Statement, encode, groupOf, functionOf]
theorem loadReg (x : RegNo) (y : RegNo) : Statement (.loadReg x y) := by simp [Statement, encode, groupOf, functionOf]
theorem orReg (x : RegNo) (y : RegNo) : Statement (.orReg x y) := by simp [Statement, encode, groupOf, functionOf]
theorem andReg (x : RegNo) (y : RegNo) : Statement (.andReg x y) := by simp [Statement, encode, groupOf, functionOf]
theorem xorReg (x : RegNo) (y : RegNo) : Statement (.xorReg x y) := by simp [Statement, encode, groupOf, functionOf]
theorem addReg (x : RegNo) (y : RegNo) : Statement (.addReg x y) := by simp [Statement, encode, groupOf, functionOf]
theorem subReg (x : RegNo) (y : RegNo) : Statement (.subReg x y) := by simp [Statement, encode, groupOf, functionOf]
theorem shiftRight (x : RegNo) : Statement (.shiftRight x) := by simp [Statement, encode, groupOf, functionOf]
theorem subnReg (x : RegNo) (y : RegNo) : Statement (.subnReg x y) := by simp [Statement, encode, groupOf, functionOf]
theorem shiftLeft (x : RegNo) : Statement (.shiftLeft x) := by simp [Statement, encode, groupOf, functionOf]
theorem skipNeqReg (x : RegNo) (y : RegNo) : Statement (.skipNeqReg x y) := by simp [Statement, encode, groupOf, functionOf]
theorem loadIndex (nnn : Addr12) : Statement (.loadIndex nnn) := by simp [Statement, encode, groupOf, functionOf]
theorem jumpOffset (nnn : Addr12) : Statement (.jumpOffset nnn) := by simp [Statement, encode, groupOf, functionOf]
theorem random (x : RegNo) (kk : Byte) : Statement (.random x kk) := by simp [Statement, encode, groupOf, functionOf]
theorem draw (x : RegNo) (y : RegNo) (n : Nibble) : Statement (.draw x y n) := by simp [Statement, encode, groupOf, functionOf]

end Sys2Proof.Laws.CanonicalWord
end

