-- ==== Sys2Proof/WellFormed.lean ====
section
/-! DEFINITION. Well-formedness: each operand lies in the range rule R73 gives its field. The four checks stand
on plain numbers, and each refuses what lies outside its range; an `Instr` carries its operands at the field's
own width, so every `Instr` passes them (Laws/WellFormed.lean; log entry 26). -/

namespace Sys2Proof

/-- A register selector names one of the NREGS registers (R20, R73). -/
def selectorOk (k : Nat) : Bool := k < Config.nregs

/-- An immediate byte is 0 to 255 (R73). -/
def immediateOk (k : Nat) : Bool := k < 256

/-- An address operand is 0 to 0xFFF, always an address of memory (R73, R129). -/
def addressOk (k : Nat) : Bool := k < Config.memSize

/-- A row count is 0 to 15 (R73, R80). -/
def rowCountOk (k : Nat) : Bool := k < 16

/-- Every operand of the instruction lies in its field's range (R73). -/
def Instr.WellFormed : Instr → Bool
  | .clearDisplay | .ret => true
  | .jump nnn | .call nnn | .loadIndex nnn | .jumpOffset nnn => addressOk nnn.toNat
  | .skipEqImm x kk | .skipNeqImm x kk | .loadImm x kk | .addImm x kk | .random x kk =>
    selectorOk x.toNat && immediateOk kk.toNat
  | .skipEqReg x y | .skipNeqReg x y | .loadReg x y | .orReg x y | .andReg x y | .xorReg x y
  | .addReg x y | .subReg x y | .subnReg x y => selectorOk x.toNat && selectorOk y.toNat
  | .shiftRight x | .shiftLeft x => selectorOk x.toNat
  | .draw x y n => selectorOk x.toNat && selectorOk y.toNat && rowCountOk n.toNat

end Sys2Proof
end

