-- ==== Sys2Proof/Laws/WellFormed.lean ====
section
/-! SUPPORT. Operands at their field's width lie in the range R73 gives the field (log entry 26). -/

namespace Sys2Proof

theorem selectorOk_toNat (x : RegNo) : selectorOk x.toNat = true := by
  have := x.isLt
  simp only [selectorOk, Config.nregs, decide_eq_true_eq]; omega

theorem immediateOk_toNat (kk : Byte) : immediateOk kk.toNat = true := by
  have := kk.isLt
  simp only [immediateOk, decide_eq_true_eq]; omega

theorem addressOk_toNat (nnn : Addr12) : addressOk nnn.toNat = true := by
  have := nnn.isLt
  simp only [addressOk, Config.memSize, decide_eq_true_eq]; omega

theorem rowCountOk_toNat (n : Nibble) : rowCountOk n.toNat = true := by
  have := n.isLt
  simp only [rowCountOk, decide_eq_true_eq]; omega

/-- Every instruction is well-formed. -/
theorem Instr.wellFormed (i : Instr) : i.WellFormed = true := by
  cases i <;>
    simp only [Instr.WellFormed, selectorOk_toNat, immediateOk_toNat, addressOk_toNat, rowCountOk_toNat, Bool.and_self]

end Sys2Proof
end

