-- ==== Sys2Proof/Tests/Slice0.lean ====
section
/-! SUPPORT. Tests: the well-formedness smoke, one word per constructor written out bit by bit from rule R75, single
steps with the results of spec/95_test_vectors.md (named in each comment), and for every statement with hypotheses
a witness that meets them. -/

namespace Sys2Proof.Tests

open Sys2Proof.Machine

/-! ## Helpers -/

/-- The reset state with some registers set. -/
def withRegs (l : List (RegNo × Byte)) : State := l.foldl (fun s p => s.writeV p.1 p.2) State.reset

/-- The reset state with a call stack, newest entry first. -/
def withStack (l : List Addr) : State := State.reset.setStack l

/-- The state with bytes placed in memory from an address on. -/
def withBytes (s : State) (a : Nat) (l : List Byte) : State := s.setMem (Memory.writeBytes s.mem a l)

/-- The cells of a framebuffer that hold 1. -/
def lit (l : List Nat) : Framebuffer := l.foldl togglePixel 0#2048

/-- One cycle on a word placed at PC, and what is looked at in the state after it. -/
def after (w : Nat) (s : State) (look : State → Bool) : Bool :=
  match step (s.withFetchWord 16 w) with
  | .next t => look t
  | .fault _ => false
  | .refused _ => false

/-- One cycle on the state as it is. -/
def cycle (s : State) (look : State → Bool) : Bool :=
  match step s with
  | .next t => look t
  | .fault _ => false
  | .refused _ => false

/-! ## Well-formedness: each check refuses a term out of its range (R73) -/

theorem test_selector_range : selectorOk 15 = true ∧ selectorOk 16 = false := by decide
theorem test_immediate_range : immediateOk 255 = true ∧ immediateOk 256 = false := by decide
theorem test_address_range : addressOk 0xFFF = true ∧ addressOk 0x1000 = false := by decide
theorem test_rowCount_range : rowCountOk 15 = true ∧ rowCountOk 16 = false := by decide

/-! ## Decoding: one word per constructor, bits from the patterns of R75 -/

theorem test_decode_clearDisplay : decode 0b0000000011100000#16 = .ok .clearDisplay := by decide
theorem test_decode_ret : decode 0b0000000011101110#16 = .ok .ret := by decide
theorem test_decode_jump : decode 0b0001001000000110#16 = .ok (.jump 0x206#12) := by decide
theorem test_decode_call : decode 0b0010001000001000#16 = .ok (.call 0x208#12) := by decide
theorem test_decode_skipEqImm : decode 0b0011111100000001#16 = .ok (.skipEqImm 15#4 1#8) := by decide
theorem test_decode_skipNeqImm : decode 0b0100001100010001#16 = .ok (.skipNeqImm 3#4 0x11#8) := by decide
theorem test_decode_skipEqReg : decode 0b0101000100101111#16 = .ok (.skipEqReg 1#4 2#4) := by decide
theorem test_decode_loadImm : decode 0b0110101001010101#16 = .ok (.loadImm 10#4 0x55#8) := by decide
theorem test_decode_addImm : decode 0b0111000011111111#16 = .ok (.addImm 0#4 0xFF#8) := by decide
theorem test_decode_loadReg : decode 0b1000111100100000#16 = .ok (.loadReg 15#4 2#4) := by decide
theorem test_decode_orReg : decode 0b1000000100100001#16 = .ok (.orReg 1#4 2#4) := by decide
theorem test_decode_andReg : decode 0b1000000100100010#16 = .ok (.andReg 1#4 2#4) := by decide
theorem test_decode_xorReg : decode 0b1000000100100011#16 = .ok (.xorReg 1#4 2#4) := by decide
theorem test_decode_addReg : decode 0b1000000100100100#16 = .ok (.addReg 1#4 2#4) := by decide
theorem test_decode_subReg : decode 0b1000000100100101#16 = .ok (.subReg 1#4 2#4) := by decide
theorem test_decode_shiftRight : decode 0b1000000111110110#16 = .ok (.shiftRight 1#4) := by decide
theorem test_decode_subnReg : decode 0b1000000100100111#16 = .ok (.subnReg 1#4 2#4) := by decide
theorem test_decode_shiftLeft : decode 0b1000000111111110#16 = .ok (.shiftLeft 1#4) := by decide
theorem test_decode_skipNeqReg : decode 0b1001000100101010#16 = .ok (.skipNeqReg 1#4 2#4) := by decide
theorem test_decode_loadIndex : decode 0b1010001000001100#16 = .ok (.loadIndex 0x20C#12) := by decide
theorem test_decode_jumpOffset : decode 0b1011001011111111#16 = .ok (.jumpOffset 0x2FF#12) := by decide
theorem test_decode_random : decode 0b1100000100001111#16 = .ok (.random 1#4 0x0F#8) := by decide
theorem test_decode_draw : decode 0b1101000100100011#16 = .ok (.draw 1#4 2#4 3#4) := by decide

/-- T-DEC-1, 4 to 14: unsupported words are rejected by name. -/
theorem test_decode_rejects :
    [0x0000#16, 0x00E1#16, 0x00FE#16, 0x01E0#16, 0x0EEE#16, 0x0123#16, 0x8008#16, 0x8129#16, 0x812F#16, 0xE19E#16,
      0xE1A1#16, 0xF007#16, 0xF00A#16, 0xF11E#16, 0xF165#16, 0xFFFF#16].all
      (fun w => decide (decode w = .error (.unsupportedOpcode w))) = true := by decide

/-- The bytes of an instruction stream, high byte first (T-FETCH-1), and a stream that is too short. -/
theorem test_decodeBytes : decodeBytes [0x60#8, 0xFF#8, 0x61#8] = .ok (.loadImm 0#4 0xFF#8, [0x61#8]) ∧
    decodeBytes [0x60#8] = .error .truncated := by decide

/-- The table's bits, and bits above them, which are 0. -/
theorem test_decodeTableWord : decodeTableWord 16 0xD123 = some (.draw 1#4 2#4 3#4) ∧
    decodeTableWord 16 0x1D123 = some (.draw 1#4 2#4 3#4) ∧ decodeTableWord 16 0xE19E = none := by decide

/-- U1: what the alternatives of GROUP0_MATCH make of 0x0EEE and 0x00FE. -/
theorem test_group0_alternatives : selectGroup0 .exact 0x0EEE#16 = none ∧ selectGroup0 .lowByte 0x0EEE#16 = some .ret ∧
    selectGroup0 .lowByte 0x00FE#16 = none ∧ selectGroup0 .lowNibble 0x00FE#16 = some .ret := by decide

/-! ## FETCH and the cycle -/

/-- T-FETCH-2: the last address at which a fetch succeeds. -/
theorem test_fetch_last : after 0x6A07 (State.reset.setPc 0xFFE#16)
    (fun t => t.pc == 0x1000#16 && t.readV 10#4 == 7#8 && t.report == some .ok) = true := by decide

/-- T-FETCH-5: no wrap to address 0. -/
theorem test_fetch_no_wrap : cycle (State.reset.setPc 0xFFFF#16)
    (fun t => t.pc == 0xFFFF#16 && t.report == some (.fetchErr (.outOfBounds 0xFFFF))) = true := by decide

/-- T-FETCH-6: an odd PC is legal. -/
theorem test_fetch_odd : after 0x6A07 (State.reset.setPc 0x201#16)
    (fun t => t.pc == 0x203#16 && t.readV 10#4 == 7#8) = true := by decide

/-- T-FETCH-8: zero-filled memory is unsupported. -/
theorem test_fetch_zero : cycle State.reset
    (fun t => t.pc == 0x202#16 && t.report == some (.execErr (.unsupportedOpcode 0#16))) = true := by decide

/-- The placing of a word where no fetch can succeed moves PC to LOAD_OFFSET. -/
theorem test_withFetchWord_moves : after 0x6A07 (State.reset.setPc 0xFFFF#16)
    (fun t => t.pc == 0x202#16 && t.readV 10#4 == 7#8) = true := by decide

/-! ## Control transfer -/

/-- T-CTL-11: last in, first out. -/
theorem test_return : after 0x00EE (withStack [0x310#16, 0x204#16])
    (fun t => t.pc == 0x310#16 && t.stack == [0x204#16]) = true := by decide

/-- T-CTL-10: underflow. -/
theorem test_return_underflow : after 0x00EE State.reset
    (fun t => t.pc == 0x202#16 && t.stack == [] && t.report == some (.execErr .stackUnderflow)) = true := by decide

/-- T-CTL-3: an odd target. -/
theorem test_jump : after 0x1201 State.reset (fun t => t.pc == 0x201#16) = true := by decide

/-- T-CTL-2: the target is not checked. -/
theorem test_jump_last : after 0x1FFF State.reset (fun t => t.pc == 0xFFF#16 && t.report == some .ok) = true := by decide

/-- T-CTL-6: the sixteenth nested call succeeds. -/
theorem test_call_sixteenth : after 0x2400 (withStack (List.replicate 15 0x300#16))
    (fun t => t.pc == 0x400#16 && t.sp == 16 && t.stackCell 15 == some 0x202#16) = true := by decide

/-- T-CTL-7: the seventeenth overflows. -/
theorem test_call_overflow : after 0x2400 (withStack (List.replicate 16 0x300#16))
    (fun t => t.pc == 0x202#16 && t.sp == 16 && t.report == some (.execErr .stackOverflow)) = true := by decide

/-- T-CTL-12 and T-CTL-13. -/
theorem test_skipEqImm : after 0x3000 (State.reset.setPc 0x20A#16) (fun t => t.pc == 0x20E#16) = true ∧
    after 0x3000 ((withRegs [(0#4, 4#8)]).setPc 0x20A#16) (fun t => t.pc == 0x20C#16) = true := by decide

/-- T-CTL-15 and T-CTL-16. -/
theorem test_skipNeqImm : after 0x4311 (withRegs [(3#4, 0x10#8)]) (fun t => t.pc == 0x204#16) = true ∧
    after 0x4310 (withRegs [(3#4, 0x10#8)]) (fun t => t.pc == 0x202#16) = true := by decide

/-- T-CTL-18, and T-DEC-16 with the ignored nibble set. -/
theorem test_skipEqReg : after 0x5120 (withRegs [(1#4, 0x7F#8), (2#4, 0x7E#8)]) (fun t => t.pc == 0x202#16) = true ∧
    after 0x512F (withRegs [(1#4, 5#8), (2#4, 5#8)]) (fun t => t.pc == 0x204#16) = true := by decide

/-- T-CTL-20 and T-CTL-22. -/
theorem test_skipNeqReg : after 0x9120 (withRegs [(1#4, 1#8), (2#4, 2#8)]) (fun t => t.pc == 0x204#16) = true ∧
    after 0x9330 (withRegs [(3#4, 9#8)]) (fun t => t.pc == 0x202#16) = true := by decide

/-- T-CTL-28 and T-CTL-32: the sum 0xFFF is accepted, and the offset register is V0 whatever bits 11 to 8 are. -/
theorem test_jumpOffset : after 0xBF00 (withRegs [(0#4, 0xFF#8)]) (fun t => t.pc == 0xFFF#16) = true ∧
    after 0xB2FF (withRegs [(0#4, 0xFF#8), (2#4, 0x77#8)]) (fun t => t.pc == 0x3FE#16) = true := by decide

/-- T-CTL-31: the largest sum. -/
theorem test_jumpOffset_outside : after 0xBFFF (withRegs [(0#4, 0xFF#8)])
    (fun t => t.pc == 0x202#16 && t.report == some (.execErr (.outOfBounds 0x10FE))) = true := by decide

/-! ## Load, arithmetic, logic, shift, index, random -/

/-- T-ALU-2: load-imm into VF. -/
theorem test_loadImm : after 0x6F07 State.reset (fun t => t.readV 15#4 == 7#8) = true := by decide

/-- T-ALU-5: no carry flag. -/
theorem test_addImm_wraps : after 0x7001 (withRegs [(0#4, 0xFF#8)])
    (fun t => t.readV 0#4 == 0#8 && t.readV 15#4 == 0#8) = true := by decide

/-- T-ALU-8: load-reg leaves VF. -/
theorem test_loadReg : after 0x8120 (withRegs [(2#4, 0xAB#8), (15#4, 1#8)])
    (fun t => t.readV 1#4 == 0xAB#8 && t.readV 15#4 == 1#8) = true := by decide

/-- T-ALU-11. -/
theorem test_or : after 0x8121 (withRegs [(1#4, 0xF0#8), (2#4, 0x0F#8), (15#4, 1#8)])
    (fun t => t.readV 1#4 == 0xFF#8 && t.readV 15#4 == 1#8) = true := by decide

/-- T-ALU-12. -/
theorem test_and : after 0x8122 (withRegs [(1#4, 0xF0#8), (2#4, 0x3C#8), (15#4, 1#8)])
    (fun t => t.readV 1#4 == 0x30#8 && t.readV 15#4 == 1#8) = true := by decide

/-- T-ALU-13. -/
theorem test_xor : after 0x8123 (withRegs [(1#4, 0xF0#8), (2#4, 0x3C#8), (15#4, 1#8)])
    (fun t => t.readV 1#4 == 0xCC#8 && t.readV 15#4 == 1#8) = true := by decide

/-- T-ALU-16. -/
theorem test_addReg_carry : after 0x8124 (withRegs [(1#4, 0xFF#8), (2#4, 1#8)])
    (fun t => t.readV 1#4 == 0#8 && t.readV 15#4 == 1#8) = true := by decide

/-- T-ALU-25: VF as an operand is read before the flag is written. -/
theorem test_addReg_flag_operand : after 0x81F4 (withRegs [(1#4, 5#8), (15#4, 1#8)])
    (fun t => t.readV 1#4 == 6#8 && t.readV 15#4 == 0#8) = true := by decide

/-- T-ALU-29. -/
theorem test_subReg_borrow : after 0x8125 (withRegs [(1#4, 3#8), (2#4, 5#8)])
    (fun t => t.readV 1#4 == 0xFE#8 && t.readV 15#4 == 0#8) = true := by decide

/-- T-ALU-33: VF as the destination keeps the flag. -/
theorem test_subReg_flag_destination : after 0x8F15 (withRegs [(15#4, 5#8), (1#4, 3#8)])
    (fun t => t.readV 15#4 == 1#8) = true := by decide

/-- T-DEC-18: `y` is ignored. -/
theorem test_shiftRight : after 0x8126 (withRegs [(1#4, 3#8), (2#4, 0xF0#8)])
    (fun t => t.readV 1#4 == 1#8 && t.readV 2#4 == 0xF0#8 && t.readV 15#4 == 1#8) = true := by decide

/-- T-ALU-38. -/
theorem test_subnReg_borrow : after 0x8127 (withRegs [(1#4, 5#8), (2#4, 3#8)])
    (fun t => t.readV 1#4 == 0xFE#8 && t.readV 15#4 == 0#8) = true := by decide

/-- T-DEC-19. -/
theorem test_shiftLeft : after 0x812E (withRegs [(1#4, 0x81#8), (2#4, 0x0F#8)])
    (fun t => t.readV 1#4 == 2#8 && t.readV 2#4 == 0x0F#8 && t.readV 15#4 == 1#8) = true := by decide

/-- T-ALU-55: VF as the destination of a shift. -/
theorem test_shiftLeft_flag_destination : after 0x8F0E (withRegs [(15#4, 0x7F#8)])
    (fun t => t.readV 15#4 == 0#8) = true := by decide

/-- T-ALU-57. -/
theorem test_loadIndex : after 0xAFFF State.reset (fun t => t.index == 0xFFF#16) = true := by decide

/-- T-RND-1 and T-RND-5, the drawn byte given. -/
theorem test_random_masks :
    (match randomWith 0xA7#8 1#4 0x0F#8 State.reset with | .next t => t.readV 1#4 == 7#8 | _ => false) = true ∧
    (match randomWith 0xFF#8 15#4 0x81#8 State.reset with | .next t => t.readV 15#4 == 0x81#8 | _ => false) = true := by
  decide

/-- T-RND-2: mask 00 gives 0 for every byte, and one byte is drawn. -/
theorem test_random_draws : after 0xC100 State.reset (fun t => t.draws == 1 && t.report == some .ok) = true := by decide

/-! ## Display -/

/-- T-CLR-1. -/
theorem test_clearDisplay : after 0x00E0 ((withRegs [(15#4, 1#8)]).setFb (lit [5, 62, 2047]))
    (fun t => t.fb == lit [] && t.readV 15#4 == 1#8) = true := by decide +kernel

/-- T-DRAW-5: both edges wrap. -/
theorem test_draw_wraps : after 0xD012 (withBytes ((withRegs [(0#4, 62#8), (1#4, 31#8)]).setIndex 0x20C#16) 0x20C [0xC0#8, 0x81#8])
    (fun t => t.fb == lit [2046, 2047, 62, 5] && t.readV 15#4 == 0#8 && t.report == some .ok) = true := by decide +kernel

/-- T-DRAW-17: all or nothing. -/
theorem test_draw_outside :
    after 0xD012 (withBytes (((withRegs [(15#4, 1#8)]).setFb (lit [7])).setIndex 0xFFF#16) 0xFFF [0xFF#8])
      (fun t => t.fb == lit [7] && t.readV 15#4 == 1#8 && t.pc == 0x202#16 &&
        t.report == some (.execErr (.outOfBounds 0x1000))) = true := by decide +kernel

/-! ## The outside -/

/-- S7's image: byte `j` goes to 0x200 + j, high byte first (R65). -/
theorem test_boot : (match State.boot [0x22#8, 0x08#8] with
    | .ok t => t.byteAt 0x200 == 0x22#8 && t.byteAt 0x201 == 8#8 && t.pc == 0x200#16
    | .error _ => false) = true := by decide

/-! ## Witnesses: for every statement with hypotheses, a state and operands that meet them all -/

theorem witness_StepKeepsInvariant : State.reset.Inv ∧ ∃ t, step State.reset = .next t := ⟨by decide, _, rfl⟩

theorem witness_EncodeOfDecode : decode 0x5121#16 = .ok (.skipEqReg 1#4 2#4) ∧
    0x512F#16 &&& significantBits (.skipEqReg 1#4 2#4) = 0x5121#16 &&& significantBits (.skipEqReg 1#4 2#4) := by decide

theorem witness_ExactGroupZeroIsTheNarrowest : selectGroup0 .exact 0x00E0#16 = some .clearDisplay ∧
    selectGroup0 .exact 0x00EE#16 = some .ret := by decide

theorem witness_StepRunsDecodedInstruction :
    ((State.reset.setPc 0xFFE#16).withFetchWord 16 0x6A07).pc.toNat ≤ 0xFFE ∧
    decode ((State.reset.setPc 0xFFE#16).withFetchWord 16 0x6A07).wordAtPc = .ok (.loadImm 10#4 7#8) := by decide

theorem witness_FetchFailureRepeatsUnchanged : (State.reset.setPc 0xFFF#16).pc.toNat > 0xFFE := by decide

theorem witness_UnsupportedWordIsReported : State.reset.pc.toNat ≤ 0xFFE ∧
    decode State.reset.wordAtPc = .error (.unsupportedOpcode State.reset.wordAtPc) := by decide

theorem witness_ErrorEntry_fetch : ∃ t, step (State.reset.setPc 0xFFF#16) = .next t ∧
    t.report = some (.fetchErr (.outOfBounds 0xFFF)) := ⟨_, rfl, by decide⟩

theorem witness_ErrorEntry_exec : ∃ t, step State.reset = .next t ∧
    t.report = some (.execErr (.unsupportedOpcode 0#16)) := ⟨_, rfl, by decide⟩

theorem witness_RaisesExactlyTheListedErrors :
    (withStack (List.replicate 16 0x300#16)).sp ≤ Config.stackDepth ∧
    errorOf (.call 0x400#12) (withStack (List.replicate 16 0x300#16)) = some .stackOverflow ∧
    errorOf .ret State.reset = some .stackUnderflow ∧
    errorOf (.jumpOffset 0xFFF#12) (withRegs [(0#4, 1#8)]) = some (.outOfBounds 0x1000) ∧
    errorOf (.draw 0#4 1#4 2#4) (State.reset.setIndex 0xFFF#16) = some (.outOfBounds 0x1000) := by decide

theorem witness_SafeStatesAreErrorFree : State.reset.sp ≤ Config.stackDepth ∧ ∃ t, step State.reset = .next t :=
  ⟨by decide, _, rfl⟩

theorem witness_Safe : (State.reset.withFetchWord 16 0x6A07).Safe :=
  ⟨by decide, .loadImm 10#4 7#8, by decide, by decide⟩

theorem witness_NoCycleWritesMemory : ∃ t, step (State.reset.withFetchWord 16 0xD015) = .next t := ⟨_, rfl⟩

theorem witness_OnlyNamedInstructionsWriteSpecialState : ∃ t, exec (.addImm 1#4 2#8) State.reset = .next t ∧
    (Instr.addImm 1#4 2#8).mnemonic ∉ ["return", "jump", "call", "skip-eq-imm", "skip-neq-imm", "skip-eq-reg",
      "skip-neq-reg", "jump-offset"] := ⟨_, rfl, by decide⟩

theorem witness_OnlyNamedInstructions_forms : (∀ nnn, Instr.addImm 1#4 2#8 ≠ .loadIndex nnn) ∧
    (∀ nnn, Instr.addImm 1#4 2#8 ≠ .call nnn) ∧ Instr.addImm 1#4 2#8 ≠ .ret ∧
    (∀ x y n, Instr.addImm 1#4 2#8 ≠ .draw x y n) ∧ Instr.addImm 1#4 2#8 ≠ .clearDisplay ∧
    (∀ x kk, Instr.addImm 1#4 2#8 ≠ .random x kk) := by
  refine ⟨?_, ?_, ?_, ?_, ?_, ?_⟩ <;> intros <;> intro h <;> cases h

theorem witness_RegistersWrittenAreTheListed : writesV (.addReg 1#4 2#4) 2#4 = false ∧
    ∃ t, exec (.addReg 1#4 2#4) State.reset = .next t := ⟨by decide, _, rfl⟩

theorem witness_RegistersReadAreTheListed : readsV (.draw 0#4 1#4 5#4) 15#4 = false ∧
    readsV (.jumpOffset 0xFFF#12) 1#4 = false ∧ readsV (.random 1#4 0#8) 1#4 = false := by decide

theorem witness_OnlyRandomDrawsAByte : ∀ x kk, Instr.ret ≠ .random x kk := by
  intro x kk h; cases h

theorem witness_CallPushesReturnAddress : (withStack (List.replicate 15 0x300#16)).sp < Config.stackDepth := by decide

theorem witness_CallAtFullDepthOverflows : (withStack (List.replicate 16 0x300#16)).sp = Config.stackDepth := by decide

theorem witness_ReturnResult : 0 < (withStack [0x204#16]).sp ∧ State.reset.sp = 0 := by decide

theorem witness_ReturnUndoesCall : State.reset.sp < Config.stackDepth ∧
    ∃ t, exec (.call 0x300#12) State.reset = .next t ∧ (t.writeV 1#4 7#8).stack = t.stack :=
  ⟨by decide, _, rfl, rfl⟩

theorem witness_JumpOffsetInRange : (0xF00#12).toNat + ((withRegs [(0#4, 0xFF#8)]).readV 0#4).toNat ≤ 0xFFF := by decide

theorem witness_JumpOffsetOutOfRange : (0xF01#12).toNat + ((withRegs [(0#4, 0xFF#8)]).readV 0#4).toNat > 0xFFF := by decide

theorem witness_SelfJumpIsAFixedPoint : (State.reset.withFetchWord 16 0x1200).pc.toNat ≤ 0xFFE ∧
    (0x200#12).toNat = (State.reset.withFetchWord 16 0x1200).pc.toNat ∧
    decode (State.reset.withFetchWord 16 0x1200).wordAtPc = .ok (.jump 0x200#12) := by decide

theorem witness_DrawResult :
    (0 < (15#4).toNat → (State.reset.setIndex 0xFF1#16).index.toNat + (15#4).toNat - 1 ≤ 0xFFF) ∧
    (0 < (0#4).toNat → (State.reset.setIndex 0xFFFF#16).index.toNat + (0#4).toNat - 1 ≤ 0xFFF) := by decide

theorem witness_DrawOutsideMemoryRaises :
    0 < (15#4).toNat ∧ (State.reset.setIndex 0xFF2#16).index.toNat + (15#4).toNat - 1 > 0xFFF := by decide

theorem witness_DrawTwiceRestores :
    (0 < (15#4).toNat → (State.reset.setIndex 0xFF1#16).index.toNat + (15#4).toNat - 1 ≤ 0xFFF) ∧
    14#4 ≠ 15#4 ∧ 0#4 ≠ 15#4 := by decide

theorem witness_LoadCopiesVerbatim : Memory.wf State.reset.mem = true ∧
    0xFFE + [1#8, 2#8].length ≤ 4096 ∧ ¬ 0xFFF + [1#8, 2#8].length ≤ 4096 ∧ [1#8, 2#8][1]? = some 2#8 := by decide

theorem witness_BootPlacesTheImage : ([] : List Byte).length + 2 ≤ 3584 ∧ (List.replicate 3582 1#8).length + 2 ≤ 3584 :=
  ⟨by decide, by rw [List.length_replicate]⟩

theorem witness_AccessIsBoundsChecked : Memory.wf (withBytes State.reset 0xFFF [7#8]).mem = true := by decide

theorem witness_TimerTickDecrements : (State.reset.setDt 1#8).dt ≠ 0#8 ∧ (State.reset.setSt 255#8).st ≠ 0#8 := by decide

end Sys2Proof.Tests
end

/-! Jump and return (41_control_transfer.md). Each answers a state that differs from the old one in PC, the stack and
the report alone, or raises; the settled statements follow from that one form. -/

namespace Sys2Proof.Machine

/-- The one form in which a control transfer completes: stack and PC replaced, Ok reported. -/
theorem transferred_setStack_setPc (s : State) (target : Addr) (stk : List Addr) :
    Transferred target stk s (((s.setStack stk).setPc target).setReport (some .ok)) := by
  simp [Transferred, SameRegs, SameTimersAndDraws, SamePixels, SameMemory]

/-- Zero extension keeps the value of an address operand (R121). -/
@[simp] theorem zextAddress_toNat (nnn : Addr12) : (zextAddress nnn).toNat = nnn.toNat :=
  BitVec.toNat_setWidth_of_le (by decide)

/-- A jump keeps the stack and loads its operand into PC (R121). -/
theorem exec_jump (nnn : Addr12) (s : State) :
    exec (.jump nnn) s = .next (((s.setStack s.stack).setPc (zextAddress nnn)).setReport (some .ok)) := rfl

/-- A return with a newest entry loads it into PC and keeps the older entries (R120). -/
theorem exec_ret_of_cons {s : State} {a : Addr} {rest : List Addr} (h : s.stack = a :: rest) :
    exec .ret s = .next (((s.setStack rest).setPc a).setReport (some .ok)) := by
  simp only [exec, execReturn, State.pop_of_cons h, finish_eq]

/-- A return with an empty stack raises (R120, R189). -/
theorem exec_ret_of_nil {s : State} (h : s.stack = []) : exec .ret s = raise .stackUnderflow s := by
  simp only [exec, execReturn, State.pop_of_nil h]

/-- The cells of a non-empty stack: the newest entry lies above the cells of the popped stack (R29). -/
theorem State.stackCell_of_cons {s : State} {a : Addr} {rest : List Addr} (h : s.stack = a :: rest) (i : Nat) :
    s.stackCell i =
      if i < rest.length then (s.setStack rest).stackCell i else if i = rest.length then some a else none := by
  have hs : (s.setStack rest).setStack (a :: (s.setStack rest).stack) = s := by rw [setStack_stack, ← h]; rfl
  have hcells := State.stackCell_push (s.setStack rest) a i
  rwa [hs] at hcells

/-- Settles O37: PC is the zero-extended operand, and a transfer keeps everything else. -/
theorem jumpResult : Obligations.JumpResult := by
  intro nnn s
  exact ⟨_, exec_jump nnn s, zextAddress_toNat nnn, transferred_setStack_setPc s _ _⟩

/-- Settles O40, by cases on the stack: empty, or a newest entry above the older ones. -/
theorem returnResult : Obligations.ReturnResult := by
  intro s
  cases hstk : s.stack with
  | nil =>
    have hsp : s.sp = 0 := by simp [State.sp, hstk]
    exact ⟨fun hpos => by omega, fun _ => exec_ret_of_nil hstk⟩
  | cons a rest =>
    have hsp : s.sp = rest.length + 1 := by simp [State.sp, hstk]
    refine ⟨fun _ => ⟨_, exec_ret_of_cons hstk, ?newest, ?depth, ?older, transferred_setStack_setPc s a rest⟩,
      fun hzero => by omega⟩
    case newest => simp [State.stackCell_of_cons hstk, hsp]
    case depth => simp [hsp]
    case older =>
      intro i hi
      have hlt : i < rest.length := hi
      rw [State.stackCell_of_cons hstk, if_pos hlt]
      rfl

end Sys2Proof.Machine

/-! Register load, arithmetic, logic, shifts and load-index (42_load_and_alu.md). Each instruction without a flag answers
one register write, each with a flag one use of the flag-write template (R22, R154); what such an answer leaves unchanged
is said once for each of the two forms. -/

namespace Sys2Proof.Machine

/-! ## What EXECUTE answers -/

theorem exec_loadImm (x : RegNo) (kk : Byte) (s : State) :
    exec (.loadImm x kk) s = .next ((s.writeV x kk).setReport (some .ok)) := rfl

theorem exec_addImm (x : RegNo) (kk : Byte) (s : State) :
    exec (.addImm x kk) s = .next ((s.writeV x (addBytes (s.readV x) kk)).setReport (some .ok)) := rfl

theorem exec_loadReg (x y : RegNo) (s : State) :
    exec (.loadReg x y) s = .next ((s.writeV x (s.readV y)).setReport (some .ok)) := rfl

theorem exec_orReg (x y : RegNo) (s : State) :
    exec (.orReg x y) s = .next ((s.writeV x (s.readV x ||| s.readV y)).setReport (some .ok)) := rfl

theorem exec_andReg (x y : RegNo) (s : State) :
    exec (.andReg x y) s = .next ((s.writeV x (s.readV x &&& s.readV y)).setReport (some .ok)) := rfl

theorem exec_xorReg (x y : RegNo) (s : State) :
    exec (.xorReg x y) s = .next ((s.writeV x (s.readV x ^^^ s.readV y)).setReport (some .ok)) := rfl

theorem exec_addReg (x y : RegNo) (s : State) :
    exec (.addReg x y) s = .next ((s.writeResultFlag x (addBytes (s.readV x) (s.readV y))
      (carry (s.readV x) (s.readV y))).setReport (some .ok)) := rfl

theorem exec_subReg (x y : RegNo) (s : State) :
    exec (.subReg x y) s = .next ((s.writeResultFlag x (subBytes (s.readV x) (s.readV y))
      (noBorrow (s.readV x) (s.readV y))).setReport (some .ok)) := rfl

theorem exec_shiftRight (x : RegNo) (s : State) :
    exec (.shiftRight x) s = .next ((s.writeResultFlag x (shiftRightByte (s.readV x))
      (bitZero (s.readV x))).setReport (some .ok)) := rfl

theorem exec_subnReg (x y : RegNo) (s : State) :
    exec (.subnReg x y) s = .next ((s.writeResultFlag x (subBytes (s.readV y) (s.readV x))
      (noBorrow (s.readV y) (s.readV x))).setReport (some .ok)) := rfl

theorem exec_shiftLeft (x : RegNo) (s : State) :
    exec (.shiftLeft x) s = .next ((s.writeResultFlag x (shiftLeftByte (s.readV x))
      (bitSeven (s.readV x))).setReport (some .ok)) := rfl

theorem exec_loadIndex (nnn : Addr12) (s : State) :
    exec (.loadIndex nnn) s = .next ((s.setIndex (zextAddress nnn)).setReport (some .ok)) := rfl

/-! ## A register write without a flag -/

/-- The one form in which an instruction without a flag completes: its destination written, Ok reported. -/
theorem wroteReg_writeV (s : State) (x : RegNo) (b : Byte) :
    WroteReg x b s ((s.writeV x b).setReport (some .ok)) := by
  refine ⟨?dest, ?otherRegs, ?outsideRegs, ?draws, ?report⟩
  case dest => simp
  case otherRegs => intro r hr; simp [hr]
  case outsideRegs => simp [SameOutsideRegs, SamePixels, SameMemory]
  case draws => simp
  case report => simp

/-- The written value may be named by reading the destination afterwards. -/
theorem WroteReg.readV_dest {x : RegNo} {b : Byte} {s t : State} (h : WroteReg x b s t) :
    WroteReg x (t.readV x) s t := by
  obtain ⟨hdest, hframe⟩ := h
  exact ⟨rfl, hframe⟩

/-! ## A register write with a flag -/

/-- The carry as the number VF holds (R146). -/
theorem carry_toNat (a b : Byte) :
    (if carry a b then 1 else 0) = if a.toNat + b.toNat > 255 then 1 else 0 := by
  simp [carry_eq]

/-- No borrow as the number VF holds (R147, R149). -/
theorem noBorrow_toNat (a b : Byte) :
    (if noBorrow a b then 1 else 0) = if a.toNat ≥ b.toNat then 1 else 0 := by
  simp [noBorrow_eq]

/-- The flag-write template leaves all but the registers alone. -/
theorem sameOutsideRegs_writeResultFlag (s : State) (x : RegNo) (b : Byte) (f : Bool) :
    SameOutsideRegs s (s.writeResultFlag x b f) := by
  simp [SameOutsideRegs, SamePixels, SameMemory, State.writeResultFlag, State.writeFlag]

/-- The one form in which an instruction with a flag completes: the flag-write template, Ok reported. Result and flag
are given as the numbers the rules speak of. -/
theorem wroteRegAndFlag_writeResultFlag (s : State) (x : RegNo) {b : Byte} {f : Bool} {result flag : Nat}
    (hresult : b.toNat = result) (hflag : (if f then 1 else 0) = flag) :
    WroteRegAndFlag x result flag s ((s.writeResultFlag x b f).setReport (some .ok)) := by
  refine ⟨?flag, ?dest, ?otherRegs, ?outsideRegs, rfl, rfl⟩
  case flag => simp [hflag]
  case dest => intro hx; simp [State.readV_writeResultFlag_dest s hx, hresult]
  case otherRegs => intro r hr hf; simp [State.readV_writeResultFlag_other s hr hf]
  case outsideRegs => exact sameOutsideRegs_writeResultFlag s x b f

/-! ## The settled statements -/

/-- Settles O26: a register write of the immediate. -/
theorem loadImmResult : Obligations.LoadImmResult := by
  intro x kk s
  exact ⟨_, exec_loadImm x kk s, wroteReg_writeV s x kk⟩

/-- Settles O27: a register write of the sum, with no flag. -/
theorem addImmResult : Obligations.AddImmResult := by
  intro x kk s
  refine ⟨_, exec_addImm x kk s, ?sum, (wroteReg_writeV s x _).readV_dest⟩
  simp [addBytes_toNat]

/-- Settles O28: a register write of the source register's value. -/
theorem loadRegResult : Obligations.LoadRegResult := by
  intro x y s
  exact ⟨_, exec_loadReg x y s, wroteReg_writeV s x (s.readV y)⟩

/-- Settles O29: three register writes, whose values have the bits of the bitwise operations. -/
theorem logicResults : Obligations.LogicResults := by
  intro x y s
  refine ⟨⟨_, exec_orReg x y s, (wroteReg_writeV s x _).readV_dest, fun j => ?or⟩,
    ⟨_, exec_andReg x y s, (wroteReg_writeV s x _).readV_dest, fun j => ?and⟩,
    ⟨_, exec_xorReg x y s, (wroteReg_writeV s x _).readV_dest, fun j => ?xor⟩⟩
  case or => simp [BitVec.getLsbD_or]
  case and => simp [BitVec.getLsbD_and]
  case xor => simp [BitVec.getLsbD_xor]

/-- Settles O30: the flag-write template with the sum and the carry. -/
theorem addRegResult : Obligations.AddRegResult := by
  intro x y s
  exact ⟨_, exec_addReg x y s, wroteRegAndFlag_writeResultFlag s x (addBytes_toNat _ _) (carry_toNat _ _)⟩

/-- Settles O31: the flag-write template with the difference `V[x] - V[y]` and its borrow. -/
theorem subRegResult : Obligations.SubRegResult := by
  intro x y s
  exact ⟨_, exec_subReg x y s, wroteRegAndFlag_writeResultFlag s x (subBytes_toNat _ _) (noBorrow_toNat _ _)⟩

/-- Settles O32: the flag-write template with the half and the dropped bit 0. -/
theorem shiftRightResult : Obligations.ShiftRightResult := by
  intro x s
  exact ⟨_, exec_shiftRight x s, wroteRegAndFlag_writeResultFlag s x (shiftRightByte_toNat _) (bitZero_toNat _)⟩

/-- Settles O33: the flag-write template with the difference `V[y] - V[x]` and its borrow. -/
theorem subnRegResult : Obligations.SubnRegResult := by
  intro x y s
  exact ⟨_, exec_subnReg x y s, wroteRegAndFlag_writeResultFlag s x (subBytes_toNat _ _) (noBorrow_toNat _ _)⟩

/-- Settles O34: the flag-write template with the double and the dropped bit 7. -/
theorem shiftLeftResult : Obligations.ShiftLeftResult := by
  intro x s
  exact ⟨_, exec_shiftLeft x s, wroteRegAndFlag_writeResultFlag s x (shiftLeftByte_toNat _) (bitSeven_toNat _)⟩

/-- Settles O35: I is the zero-extended operand, and replacing I keeps everything else. -/
theorem loadIndexResult : Obligations.LoadIndexResult := by
  intro nnn s
  refine ⟨_, exec_loadIndex nnn s, zextAddress_toNat nnn, ?frame⟩
  simp [SameRegs, SameTimersAndDraws, SamePixels, SameMemory]

end Sys2Proof.Machine

/-! Clear-display (43_display.md, R170). It answers the state with a blank framebuffer, and replacing the framebuffer
keeps everything else. -/

namespace Sys2Proof.Machine

/-- Every pixel of the blank framebuffer is 0. -/
@[simp] theorem pixelAt_zero (k : Nat) : pixelAt 0#2048 k = false := BitVec.getLsbD_zero

theorem exec_clearDisplay (s : State) :
    exec .clearDisplay s = .next ((s.setFb 0#2048).setReport (some .ok)) := rfl

/-- Settles O47: the new framebuffer is blank, and replacing it keeps everything else, VF included. -/
theorem clearDisplayResult : Obligations.ClearDisplayResult := by
  intro s
  refine ⟨_, exec_clearDisplay s, ?blank, ?frame⟩
  case blank => intro k; simp
  case frame => simp [SameRegs, SameTimersAndDraws, SameMemory]

end Sys2Proof.Machine

/-! Reset (70_reset_and_hazards.md, R220). Memory lists no address, the register file is 16 copies of zero, the stack is
empty and the framebuffer is blank; what the read operations answer there is said once for each. -/

namespace Sys2Proof.Machine

/-- Memory that lists no address reads 0x00 everywhere (R226). -/
@[simp] theorem Memory.read_nil (a : Nat) : Memory.read [] a = 0#8 := rfl

/-- Every memory byte is 0x00 after reset. -/
@[simp] theorem State.byteAt_reset (a : Nat) : State.reset.byteAt a = 0#8 := Memory.read_nil a

/-- Every general register is 0x00 after reset. -/
@[simp] theorem State.readV_reset (r : RegNo) : State.reset.readV r = 0#8 := Vector.getElem_replicate r.isLt

/-- The call stack is empty after reset. -/
@[simp] theorem State.sp_reset : State.reset.sp = 0 := List.length_nil

/-- Every pixel is 0 after reset: the framebuffer is the blank one. -/
@[simp] theorem State.pixelAt_reset (k : Nat) : pixelAt State.reset.fb k = false := pixelAt_zero k

/-- Settles O1: memory, registers, stack and pixels by what their reads answer at reset; I, PC, DT and ST are fields that
reset states outright. -/
theorem resetValues : Obligations.ResetValues := by
  refine ⟨State.byteAt_reset, State.readV_reset, ?index, ?pc, State.sp_reset, ?dt, ?st, State.pixelAt_reset⟩
  case index => rfl
  case pc => rfl
  case dt => rfl
  case st => rfl

end Sys2Proof.Machine

/-! The other answers of EXECUTE: call, the skips, jump-offset, random and draw (41_control_transfer.md,
42_load_and_alu.md section 12, 43_display.md section 2). -/

namespace Sys2Proof.Machine

theorem exec_call_of_lt (nnn : Addr12) {s : State} (h : s.sp < Config.stackDepth) :
    exec (.call nnn) s = finish ((s.setStack (s.pc :: s.stack)).setPc (zextAddress nnn)) := by
  simp only [exec, execCall, State.push_of_lt h]

theorem exec_call_of_le (nnn : Addr12) {s : State} (h : Config.stackDepth ≤ s.sp) :
    exec (.call nnn) s = raise .stackOverflow s := by
  simp only [exec, execCall, State.push_of_le h]

theorem exec_jumpOffset_of_le {nnn : Addr12} {s : State} (h : nnn.toNat + (s.readV 0#4).toNat ≤ 0xFFF) :
    exec (.jumpOffset nnn) s = finish (s.setPc (BitVec.ofNat 16 (nnn.toNat + (s.readV 0#4).toNat))) :=
  if_neg (Nat.not_lt.mpr h)

theorem exec_jumpOffset_of_gt {nnn : Addr12} {s : State} (h : nnn.toNat + (s.readV 0#4).toNat > 0xFFF) :
    exec (.jumpOffset nnn) s = raise (.outOfBounds (nnn.toNat + (s.readV 0#4).toNat)) s :=
  if_pos h

/-- A target inside memory is stored whole: no bit is lost (R127). -/
theorem jumpOffset_target_toNat {k : Nat} (h : k ≤ 0xFFF) : (BitVec.ofNat 16 k).toNat = k :=
  Nat.mod_eq_of_lt (by omega)

theorem exec_random (x : RegNo) (kk : Byte) (s : State) :
    exec (.random x kk) s =
      finish ((s.setDraws (s.draws + 1)).writeV x (Config.randomByte s.draws &&& kk)) := rfl

/-- The canvas on which a draw has plotted its whole sprite (R172). -/
def State.drawn (s : State) (x y : RegNo) (n : Nibble) : Canvas :=
  plotRows (s.readV x).toNat (s.readV y).toNat 0 (s.spriteBytes n.toNat) ⟨s.fb, false⟩

theorem exec_draw_of_inside (x y : RegNo) {n : Nibble} {s : State}
    (h : ¬ (n.toNat > 0 ∧ s.index.toNat + n.toNat - 1 > 0xFFF)) :
    exec (.draw x y n) s = finish ((s.setFb (s.drawn x y n).fb).writeFlag (s.drawn x y n).collision) :=
  if_neg (mt (s.spriteOutside_iff _).mp h)

theorem exec_draw_of_outside (x y : RegNo) {n : Nibble} {s : State}
    (h : n.toNat > 0 ∧ s.index.toNat + n.toNat - 1 > 0xFFF) :
    exec (.draw x y n) s = raise (.outOfBounds (s.index.toNat + n.toNat - 1)) s := by
  have haddr : s.spriteAddress (n.toNat - 1) = s.index.toNat + n.toNat - 1 := by
    simp only [State.spriteAddress]; omega
  rw [← haddr]
  exact if_pos ((s.spriteOutside_iff _).mpr h)

end Sys2Proof.Machine

/-! What EXECUTE can do to the state, said once for all 23 instructions: it raises the listed error, or it completes
with one of the effects of `Effect`. The safety statements follow from the effects and not from the instructions. -/

namespace Sys2Proof.Machine

/-- The mnemonics of the instructions that write PC (10_state.md section 3). -/
abbrev transferMnemonics : List String :=
  ["return", "jump", "call", "skip-eq-imm", "skip-neq-imm", "skip-eq-reg", "skip-neq-reg", "jump-offset"]

/-- `Effect s i u`: completing `i` from `s` leaves `u`, but for the report. -/
inductive Effect (s : State) : Instr → State → Prop
  /-- a register without a flag (R140 to R145) -/
  | writeV {i x} (b : Byte) (hx : writesV i x = true) : Effect s i (s.writeV x b)
  /-- a register and the flag (R146 to R150) -/
  | writeResultFlag {i x} (b : Byte) (f : Bool) (hx : writesV i x = true) (hf : writesV i 15#4 = true) :
    Effect s i (s.writeResultFlag x b f)
  /-- the index register (R151) -/
  | setIndex (nnn : Addr12) : Effect s (.loadIndex nnn) (s.setIndex (zextAddress nnn))
  /-- one byte drawn and stored (R152) -/
  | random (x : RegNo) (kk b : Byte) : Effect s (.random x kk) ((s.setDraws (s.draws + 1)).writeV x b)
  /-- a jump into memory (R121, R127) -/
  | jump {i} {a : Addr} (hi : i.mnemonic ∈ transferMnemonics) (ha : a.toNat ≤ 0xFFF) : Effect s i (s.setPc a)
  /-- a skip, taken or not (R123 to R126) -/
  | skip {i} (c : Bool) (hi : i.mnemonic ∈ transferMnemonics) :
    Effect s i (s.setPc (if c then s.pc + 2#16 else s.pc))
  /-- a call below full depth (R122) -/
  | call (nnn : Addr12) (h : s.sp < Config.stackDepth) :
    Effect s (.call nnn) ((s.setStack (s.pc :: s.stack)).setPc (zextAddress nnn))
  /-- a return with a newest entry (R120) -/
  | ret {a : Addr} {rest : List Addr} (h : s.stack = a :: rest) : Effect s .ret ((s.setStack rest).setPc a)
  /-- a blank framebuffer (R170) -/
  | clear : Effect s .clearDisplay (s.setFb 0#2048)
  /-- a plotted framebuffer and the collision (R172) -/
  | draw (x y : RegNo) (n : Nibble) (c : Canvas) : Effect s (.draw x y n) ((s.setFb c.fb).writeFlag c.collision)

/-- An address operand lies inside memory (R129). -/
theorem zextAddress_toNat_le (nnn : Addr12) : (zextAddress nnn).toNat ≤ 0xFFF := by
  have := nnn.isLt
  rw [zextAddress_toNat]; omega

/-- EXECUTE raises the error `errorOf` lists, or, where it lists none, completes with an effect. The bound on the stack
is the invariant's, without which `errorOf` lists no overflow (log entry 5). -/
theorem exec_effect (i : Instr) (s : State) :
    (∃ e, exec i s = raise e s ∧ (s.sp ≤ Config.stackDepth → errorOf i s = some e)) ∨
      (errorOf i s = none ∧ ∃ u, exec i s = finish u ∧ Effect s i u) := by
  cases i with
  | ret =>
    cases hs : s.stack with
    | nil => exact .inl ⟨_, exec_ret_of_nil hs, fun _ => if_pos (by simp [State.sp, hs])⟩
    | cons a rest =>
      exact .inr ⟨if_neg (by simp [State.sp, hs]), _, exec_ret_of_cons hs, .ret hs⟩
  | call nnn =>
    by_cases h : s.sp < Config.stackDepth
    · exact .inr ⟨if_neg h.ne, _, exec_call_of_lt nnn h, .call nnn h⟩
    · have hfull := Nat.le_of_not_lt h
      exact .inl ⟨_, exec_call_of_le nnn hfull, fun hsp => if_pos (Nat.le_antisymm hsp hfull)⟩
  | jumpOffset nnn =>
    by_cases h : nnn.toNat + (s.readV 0#4).toNat > 0xFFF
    · exact .inl ⟨_, exec_jumpOffset_of_gt h, fun _ => if_pos h⟩
    · have hle := Nat.le_of_not_lt h
      exact .inr ⟨if_neg h, _, exec_jumpOffset_of_le hle,
        .jump (by simp [Instr.mnemonic]) (by rwa [jumpOffset_target_toNat hle])⟩
  | draw x y n =>
    by_cases h : n.toNat > 0 ∧ s.index.toNat + n.toNat - 1 > 0xFFF
    · exact .inl ⟨_, exec_draw_of_outside x y h, fun _ => if_pos h⟩
    · exact .inr ⟨if_neg h, _, exec_draw_of_inside x y h, .draw x y n _⟩
  | skipEqImm | skipNeqImm | skipEqReg | skipNeqReg =>
    exact .inr ⟨rfl, _, skipIf_eq _ s, .skip _ (by simp [Instr.mnemonic])⟩
  | jump nnn => exact .inr ⟨rfl, _, rfl, .jump (by simp [Instr.mnemonic]) (zextAddress_toNat_le nnn)⟩
  | loadImm | addImm | loadReg | orReg | andReg | xorReg =>
    exact .inr ⟨rfl, _, rfl, .writeV _ (by simp [writesV])⟩
  | addReg | subReg | shiftRight | subnReg | shiftLeft =>
    exact .inr ⟨rfl, _, rfl, .writeResultFlag _ _ (by simp [writesV]) (by simp [writesV])⟩
  | loadIndex nnn => exact .inr ⟨rfl, _, rfl, .setIndex nnn⟩
  | random x kk => exact .inr ⟨rfl, _, exec_random x kk s, .random x kk _⟩
  | clearDisplay => exact .inr ⟨rfl, _, rfl, .clear⟩

/-- The same inversion for an answered state: it is the old one but for the report, or an effect's. -/
theorem eq_or_effect_of_exec {i : Instr} {s t : State} (h : exec i s = .next t) :
    ∃ u r, t = u.setReport (some r) ∧ (u = s ∨ Effect s i u) := by
  obtain ⟨e, hraise, -⟩ | ⟨-, u, hfinish, heffect⟩ := exec_effect i s
  · rw [hraise, raise_eq, Host.Outcome.next.injEq] at h
    exact ⟨s, _, h.symm, .inl rfl⟩
  · rw [hfinish, finish_eq, Host.Outcome.next.injEq] at h
    exact ⟨u, _, h.symm, .inr heffect⟩

/-- No effect writes memory (R33). -/
theorem Effect.mem_eq {s u : State} {i : Instr} (h : Effect s i u) : u.mem = s.mem := by cases h <;> rfl

/-- No EXECUTE writes memory. -/
theorem mem_of_exec {i : Instr} {s t : State} (h : exec i s = .next t) : t.mem = s.mem := by
  obtain ⟨u, r, rfl, rfl | heffect⟩ := eq_or_effect_of_exec h
  · rfl
  · exact heffect.mem_eq

/-- The register an effect does not list as written keeps its value. -/
theorem Effect.readV_eq {s u : State} {i : Instr} (h : Effect s i u) {r : RegNo} (hr : writesV i r = false) :
    u.readV r = s.readV r := by
  have hne : ∀ {x}, writesV i x = true → r ≠ x := by
    rintro x hx rfl
    simp [hx] at hr
  cases h with
  | writeV b hx => simp [hne hx]
  | writeResultFlag b f hx hf => exact s.readV_writeResultFlag_other (hne hx) (hne hf) b f
  | random x kk b => simp [hne (x := x) (by simp [writesV])]
  | draw x y n c => simp [State.writeFlag, hne (x := Config.flagReg) (by simp [writesV])]
  | setIndex | jump | skip | call | ret | clear => rfl

/-- Settles O23: an effect writes listed registers only. -/
theorem registersWrittenAreTheListed : Obligations.RegistersWrittenAreTheListed := by
  intro i s t r h hr
  obtain ⟨u, _, rfl, rfl | heffect⟩ := eq_or_effect_of_exec h
  · rfl
  · exact heffect.readV_eq hr

/-- Settles O22, effect by effect. -/
theorem onlyNamedInstructionsWriteSpecialState : Obligations.OnlyNamedInstructionsWriteSpecialState := by
  intro i s t h
  obtain ⟨u, _, rfl, rfl | heffect⟩ := eq_or_effect_of_exec h
  · simp
  · cases heffect with
    | jump hi | skip _ hi => simp [hi]
    | writeV | writeResultFlag | draw | random | setIndex | call | ret | clear =>
      simp [Instr.mnemonic, State.writeResultFlag, State.writeFlag]

/-- Settles O16: the error listed is raised, and where none is listed EXECUTE completes. -/
theorem raisesExactlyTheListedErrors : Obligations.RaisesExactlyTheListedErrors := by
  intro i s hsp
  obtain ⟨e, hraise, herror⟩ | ⟨hnone, u, hfinish, -⟩ := exec_effect i s
  · have he := herror hsp
    refine ⟨_, hraise, by simp [resultOf, he], fun e' he' => ?_⟩
    rw [Option.some.inj (he.symm.trans he')]
  · refine ⟨_, hfinish, by simp [resultOf, hnone], fun e' he' => ?_⟩
    simp [hnone] at he'

end Sys2Proof.Machine

/-! The cycle (40_fetch_decode_cycle.md): it fails to fetch, meets an unsupported word, or runs the decoded
instruction. -/

namespace Sys2Proof.Machine

/-! ## FETCH -/

theorem fetch_of_le {s : State} (h : s.pc.toNat ≤ 0xFFE) : s.fetch = .ok (s.wordAtPc, s.setPc (s.pc + 2#16)) := by
  simp only [State.fetch, State.memRead2_eq, if_pos h]; rfl

theorem fetch_of_gt {s : State} (h : s.pc.toNat > 0xFFE) : s.fetch = .error (.outOfBounds s.pc.toNat) := by
  simp only [State.fetch, State.memRead2_eq, if_neg (Nat.not_le.mpr h)]

/-- Settles O10: the word at PC is big-endian. -/
theorem fetchReadsBigEndian : Obligations.FetchReadsBigEndian := by
  intro s
  split
  case isTrue h => exact ⟨s.wordAtPc, wordOfBytes_toNat _ _, fetch_of_le h⟩
  case isFalse h => exact fetch_of_gt (Nat.lt_of_not_le h)

/-! ## The three ways of a cycle -/

theorem step_of_gt {s : State} (h : s.pc.toNat > 0xFFE) : step s = raiseFetch (.outOfBounds s.pc.toNat) s := by
  simp only [step, fetch_of_gt h]

theorem step_of_decode_ok {s : State} {i : Instr} (h : s.pc.toNat ≤ 0xFFE) (hd : decode s.wordAtPc = .ok i) :
    step s = exec i (s.setPc (s.pc + 2#16)) := by
  simp only [step, fetch_of_le h, hd]

theorem step_of_decode_error {s : State} {e : DecodeError} (h : s.pc.toNat ≤ 0xFFE)
    (hd : decode s.wordAtPc = .error e) :
    step s = raise (.unsupportedOpcode s.wordAtPc) (s.setPc (s.pc + 2#16)) := by
  simp only [step, fetch_of_le h, hd, raiseUnsupported]

/-- A cycle fails to fetch, or meets an unsupported word, or runs an instruction. -/
theorem step_cases (s : State) :
    (s.pc.toNat > 0xFFE ∧ step s = raiseFetch (.outOfBounds s.pc.toNat) s) ∨
    (s.pc.toNat ≤ 0xFFE ∧ (∃ e, decode s.wordAtPc = .error e) ∧
      step s = raise (.unsupportedOpcode s.wordAtPc) (s.setPc (s.pc + 2#16))) ∨
    (s.pc.toNat ≤ 0xFFE ∧ ∃ i, decode s.wordAtPc = .ok i ∧ step s = exec i (s.setPc (s.pc + 2#16))) := by
  by_cases h : s.pc.toNat ≤ 0xFFE
  · cases hd : decode s.wordAtPc with
    | error e => exact .inr (.inl ⟨h, ⟨e, rfl⟩, step_of_decode_error h hd⟩)
    | ok i => exact .inr (.inr ⟨h, i, rfl, step_of_decode_ok h hd⟩)
  · exact .inl ⟨Nat.lt_of_not_le h, step_of_gt (Nat.lt_of_not_le h)⟩

/-- Settles O11: the third way of a cycle. -/
theorem stepRunsDecodedInstruction : Obligations.StepRunsDecodedInstruction :=
  fun _ _ h hd => step_of_decode_ok h hd

/-- Settles O13: the second way of a cycle. -/
theorem unsupportedWordIsReported : Obligations.UnsupportedWordIsReported :=
  fun _ h hd => step_of_decode_error h hd

/-! ## Outcomes and errors -/

/-- Settles O15, by the three ways of a cycle. -/
theorem everyCycleHasAnOutcome : Obligations.EveryCycleHasAnOutcome := by
  intro s
  obtain ⟨hpc, hstep⟩ | ⟨hpc, -, hstep⟩ | ⟨hpc, i, -, hstep⟩ := step_cases s
  · exact ⟨_, hstep, by simp [Nat.not_le.mpr hpc]⟩
  · exact ⟨_, hstep, by simp [hpc]⟩
  · obtain ⟨t, hok, hreport⟩ | ⟨e, hraise⟩ := exec_cases i (s.setPc (s.pc + 2#16))
    · exact ⟨t, hstep.trans hok, by simp [hpc, hreport]⟩
    · exact ⟨_, hstep.trans hraise, by simp [hpc]⟩

/-- Every cycle answers a next state. -/
theorem step_next (s : State) : ∃ t, step s = .next t := by
  obtain ⟨t, hstep, -⟩ := everyCycleHasAnOutcome s
  exact ⟨t, hstep⟩

/-- Settles O14: a raise replaces nothing but the report. -/
theorem errorEntryLeavesStatePrecise : Obligations.ErrorEntryLeavesStatePrecise := by
  intro s t e h
  obtain ⟨-, hstep⟩ | ⟨-, -, hstep⟩ | ⟨-, i, -, hstep⟩ := step_cases s <;> rw [h] at hstep
  · cases hstep
    simp +contextual
  · cases hstep
    simp +contextual
  · obtain ⟨u, hok, hreport⟩ | ⟨e', hraise⟩ := exec_cases i (s.setPc (s.pc + 2#16))
    · rw [hok] at hstep
      cases hstep
      simp [hreport]
    · rw [hraise] at hstep
      cases hstep
      simp +contextual

/-- Settles O17: a cycle reports Ok exactly when it fetches, decodes and meets no listed error. -/
theorem safeStatesAreErrorFree : Obligations.SafeStatesAreErrorFree := by
  intro s t hsp h
  obtain ⟨hpc, hstep⟩ | ⟨-, ⟨e, hd⟩, hstep⟩ | ⟨hpc, i, hd, hstep⟩ := step_cases s <;> rw [h] at hstep
  · cases hstep
    simp [State.Safe, Nat.not_le.mpr hpc]
  · cases hstep
    simp [State.Safe, hd]
  · have hsafe : s.Safe ↔ errorOf i (s.setPc (s.pc + 2#16)) = none := by simp [State.Safe, hpc, hd]
    obtain ⟨u, hexec, hreport, -⟩ := raisesExactlyTheListedErrors i (s.setPc (s.pc + 2#16)) hsp
    rw [hexec] at hstep
    cases hstep
    rw [hsafe, hreport, resultOf]
    cases errorOf i (s.setPc (s.pc + 2#16)) <;> simp

/-- Settles O21: neither an error nor an effect writes memory. -/
theorem noCycleWritesMemory : Obligations.NoCycleWritesMemory := by
  intro s t h
  obtain ⟨-, hstep⟩ | ⟨-, -, hstep⟩ | ⟨-, i, -, hstep⟩ := step_cases s <;> rw [h] at hstep
  · cases hstep; rfl
  · cases hstep; rfl
  · exact mem_of_exec (s := s.setPc (s.pc + 2#16)) hstep.symm

/-- Settles O12: the failing cycle replaces nothing but the report, so the next one fails alike. -/
theorem fetchFailureRepeatsUnchanged : Obligations.FetchFailureRepeatsUnchanged := by
  intro s k h
  induction k generalizing s with
  | zero => simp [runEvents, perform, step_of_gt h, raiseFetch_eq]
  | succ k ih =>
    rw [List.replicate_succ]
    simp only [runEvents, perform, step_of_gt h, raiseFetch_eq]
    exact ih (s.setReport _) h

/-- Settles O46: the jump's operand, zero-extended, is the PC the cycle started from. -/
theorem selfJumpIsAFixedPoint : Obligations.SelfJumpIsAFixedPoint := by
  intro s nnn hpc hself hd
  have htarget : zextAddress nnn = s.pc := BitVec.eq_of_toNat_eq ((zextAddress_toNat nnn).trans hself)
  rw [step_of_decode_ok hpc hd, exec_jump, htarget]
  rfl

end Sys2Proof.Machine

/-! The invariant of every run (10_state.md sections 3 and 4). -/

namespace Sys2Proof.Machine

/-- The invariant with PC advanced by a fetch, so at most 0x1000: what EXECUTE starts from. -/
def State.FetchedInv (s : State) : Prop := s.Inv ∧ s.pc.toNat ≤ 0x1000

/-- The report is no part of the invariant. -/
theorem inv_setReport {s : State} (h : s.Inv) (r : Option CycleResult) : (s.setReport r).Inv := h

/-- A successful fetch establishes the bound on the advanced PC. -/
theorem fetchedInv_of_inv {s : State} (h : s.Inv) (hpc : s.pc.toNat ≤ 0xFFE) :
    (s.setPc (s.pc + 2#16)).FetchedInv := by
  obtain ⟨hmem, hsp, hindex, -, hstack⟩ := h
  have hadv : (s.pc + 2#16).toNat ≤ 0x1000 := by
    rw [BitVec.toNat_add]; simp only [BitVec.toNat_ofNat]; omega
  exact ⟨⟨hmem, hsp, hindex, hadv.trans (by decide), hstack⟩, hadv⟩

/-- Every effect keeps the invariant: a skip adds 2 to an advanced PC, a call pushes one, a return pops one. -/
theorem Effect.inv {s u : State} {i : Instr} (heffect : Effect s i u) (h : s.FetchedInv) : u.Inv := by
  obtain ⟨⟨hmem, hsp, hindex, hpc, hstack⟩, hadv⟩ := h
  cases heffect with
  | writeV | writeResultFlag | random | clear | draw => exact ⟨hmem, hsp, hindex, hpc, hstack⟩
  | setIndex nnn => exact ⟨hmem, hsp, zextAddress_toNat_le nnn, hpc, hstack⟩
  | jump hi ha => exact ⟨hmem, hsp, hindex, ha.trans (by decide), hstack⟩
  | skip c =>
    refine ⟨hmem, hsp, hindex, ?target, hstack⟩
    case target =>
      cases c
      · exact hpc
      · simp only [State.setPc_pc, if_true, BitVec.toNat_add, BitVec.toNat_ofNat]; omega
  | call nnn hlt =>
    refine ⟨hmem, hlt, hindex, (zextAddress_toNat_le nnn).trans (by decide), ?stack⟩
    case stack => simpa [hadv] using hstack
  | ret hs =>
    rw [hs] at hstack
    simp only [List.all_cons, Bool.and_eq_true, decide_eq_true_eq] at hstack
    obtain ⟨ha, hrest⟩ := hstack
    have hlen : s.sp = _ := congrArg List.length hs
    rw [List.length_cons] at hlen
    exact ⟨hmem, by simp only [State.sp_setPc, State.sp_setStack]; omega, hindex, ha.trans (by decide), hrest⟩

/-- Settles O3: a failed fetch and an unsupported word change PC and the report alone, and EXECUTE starts from an
advanced PC. -/
theorem stepKeepsInvariant : Obligations.StepKeepsInvariant := by
  intro s t h hnext
  obtain ⟨-, hstep⟩ | ⟨hpc, -, hstep⟩ | ⟨hpc, i, -, hstep⟩ := step_cases s <;> rw [hnext] at hstep
  · cases hstep
    exact inv_setReport h _
  · cases hstep
    exact inv_setReport (fetchedInv_of_inv h hpc).1 _
  · have hfetched := fetchedInv_of_inv h hpc
    obtain ⟨u, r, rfl, rfl | heffect⟩ := eq_or_effect_of_exec hstep.symm
    · exact inv_setReport hfetched.1 _
    · exact inv_setReport (heffect.inv hfetched) _

/-- Settles O2: memory and stack are empty, I is 0 and PC is LOAD_OFFSET. -/
theorem resetMeetsInvariant : Obligations.ResetMeetsInvariant :=
  ⟨Memory.wf_reset, by simp, by decide, by decide, rfl⟩

end Sys2Proof.Machine

/-! Noninterference. Two states that agree on all that an instruction reads stay in agreement through EXECUTE; the
statements about the report, the timers, the unread registers and the draws are instances. -/

namespace Sys2Proof.Machine

/-! ## Answers in relation -/

/-- Both answers are next states, and these are in the relation. -/
def BothNext (Q : State → State → Prop) (a a' : Answer) : Prop :=
  ∃ t t', a = .next t ∧ a' = .next t' ∧ Q t t'

/-- `Agreement R Q i`: states in relation `R` look alike to instruction `i`, every update made to both keeps `R`, and
reporting the same outcome in both leads to `Q`. -/
structure Agreement (R Q : State → State → Prop) (i : Instr) : Prop where
  index {s s'} : R s s' → s'.index = s.index
  pc {s s'} : R s s' → s'.pc = s.pc
  stack {s s'} : R s s' → s'.stack = s.stack
  fb {s s'} : R s s' → s'.fb = s.fb
  mem {s s'} : R s s' → s'.mem = s.mem
  readV {s s'} : R s s' → ∀ r, readsV i r = true → s'.readV r = s.readV r
  draws {s s'} : (∃ x kk, i = .random x kk) → R s s' → s'.draws = s.draws
  setIndex {s s'} : R s s' → ∀ a, R (s.setIndex a) (s'.setIndex a)
  setPc {s s'} : R s s' → ∀ a, R (s.setPc a) (s'.setPc a)
  setStack {s s'} : R s s' → ∀ l, R (s.setStack l) (s'.setStack l)
  setFb {s s'} : R s s' → ∀ f, R (s.setFb f) (s'.setFb f)
  setDraws {s s'} : (∃ x kk, i = .random x kk) → R s s' → ∀ k, R (s.setDraws k) (s'.setDraws k)
  writeV {s s'} : R s s' → ∀ x b, R (s.writeV x b) (s'.writeV x b)
  setReport {s s'} : R s s' → ∀ r, Q (s.setReport r) (s'.setReport r)

section
variable {R Q : State → State → Prop} {i : Instr} {s s' : State}

theorem Agreement.finish (h : Agreement R Q i) (hR : R s s') : BothNext Q (finish s) (finish s') :=
  ⟨_, _, rfl, rfl, h.setReport hR _⟩

theorem Agreement.raise (h : Agreement R Q i) (hR : R s s') (e : MachineError) :
    BothNext Q (raise e s) (raise e s') :=
  ⟨_, _, rfl, rfl, h.setReport hR _⟩

theorem Agreement.skipIf (h : Agreement R Q i) (hR : R s s') (c : Bool) : BothNext Q (skipIf c s) (skipIf c s') := by
  rw [skipIf_eq, skipIf_eq, h.pc hR]
  exact h.finish (h.setPc hR _)

theorem Agreement.writeResultFlag (h : Agreement R Q i) (hR : R s s') (x : RegNo) (b : Byte) (f : Bool) :
    R (s.writeResultFlag x b f) (s'.writeResultFlag x b f) :=
  h.writeV (h.writeV hR x b) _ _

/-- The sprite of a draw depends on I and memory alone. -/
theorem spriteBytes_congr (hindex : s'.index = s.index) (hmem : s'.mem = s.mem) (n : Nat) :
    s'.spriteBytes n = s.spriteBytes n := by
  simp only [State.spriteBytes, State.spriteAddress, State.byteAt, hindex, hmem]

/-- EXECUTE keeps states in agreement. -/
theorem Agreement.exec (h : Agreement R Q i) (hR : R s s') : BothNext Q (exec i s) (exec i s') := by
  have hread := h.readV hR
  cases i with
  | clearDisplay => exact h.finish (h.setFb hR _)
  | ret =>
    cases hs : s.stack with
    | nil =>
      rw [exec_ret_of_nil hs, exec_ret_of_nil ((h.stack hR).trans hs)]
      exact h.raise hR _
    | cons a rest =>
      rw [exec_ret_of_cons hs, exec_ret_of_cons ((h.stack hR).trans hs)]
      exact h.finish (h.setPc (h.setStack hR _) _)
  | jump => exact h.finish (h.setPc hR _)
  | call nnn =>
    have hsp : s'.sp = s.sp := congrArg List.length (h.stack hR)
    by_cases hlt : s.sp < Config.stackDepth
    · rw [exec_call_of_lt nnn hlt, exec_call_of_lt nnn (hsp ▸ hlt), h.pc hR, h.stack hR]
      exact h.finish (h.setPc (h.setStack hR _) _)
    · have hfull := Nat.le_of_not_lt hlt
      rw [exec_call_of_le nnn hfull, exec_call_of_le nnn (hsp ▸ hfull)]
      exact h.raise hR _
  | skipEqImm x | skipNeqImm x =>
    simp only [Machine.exec, execSkipEqImm, execSkipNeqImm, hread x (by simp [readsV])]
    exact h.skipIf hR _
  | skipEqReg x y | skipNeqReg x y =>
    simp only [Machine.exec, execSkipEqReg, execSkipNeqReg, hread x (by simp [readsV]), hread y (by simp [readsV])]
    exact h.skipIf hR _
  | loadImm => exact h.finish (h.writeV hR _ _)
  | addImm x =>
    rw [exec_addImm, exec_addImm, hread x (by simp [readsV])]
    exact h.finish (h.writeV hR _ _)
  | loadReg x y =>
    rw [exec_loadReg, exec_loadReg, hread y (by simp [readsV])]
    exact h.finish (h.writeV hR _ _)
  | orReg x y | andReg x y | xorReg x y =>
    simp only [exec_orReg, exec_andReg, exec_xorReg, hread x (by simp [readsV]), hread y (by simp [readsV])]
    exact h.finish (h.writeV hR _ _)
  | addReg x y | subReg x y | subnReg x y =>
    simp only [exec_addReg, exec_subReg, exec_subnReg, hread x (by simp [readsV]), hread y (by simp [readsV])]
    exact h.finish (h.writeResultFlag hR _ _ _)
  | shiftRight x | shiftLeft x =>
    simp only [exec_shiftRight, exec_shiftLeft, hread x (by simp [readsV])]
    exact h.finish (h.writeResultFlag hR _ _ _)
  | loadIndex => exact h.finish (h.setIndex hR _)
  | jumpOffset nnn =>
    have h0 := hread 0#4 (by simp [readsV])
    by_cases hgt : nnn.toNat + (s.readV 0#4).toNat > 0xFFF
    · rw [exec_jumpOffset_of_gt hgt, exec_jumpOffset_of_gt (h0 ▸ hgt), h0]
      exact h.raise hR _
    · have hle := Nat.le_of_not_lt hgt
      rw [exec_jumpOffset_of_le hle, exec_jumpOffset_of_le (h0 ▸ hle), h0]
      exact h.finish (h.setPc hR _)
  | random x kk =>
    rw [exec_random, exec_random, h.draws ⟨x, kk, rfl⟩ hR]
    exact h.finish (h.writeV (h.setDraws ⟨x, kk, rfl⟩ hR _) _ _)
  | draw x y n =>
    have hindex := h.index hR
    by_cases hout : n.toNat > 0 ∧ s.index.toNat + n.toNat - 1 > 0xFFF
    · rw [exec_draw_of_outside x y hout, exec_draw_of_outside x y (hindex ▸ hout), hindex]
      exact h.raise hR _
    · have hdrawn : s'.drawn x y n = s.drawn x y n := by
        simp only [State.drawn, hread x (by simp [readsV]), hread y (by simp [readsV]), h.fb hR,
          spriteBytes_congr hindex (h.mem hR)]
      rw [exec_draw_of_inside x y hout, exec_draw_of_inside x y (hindex ▸ hout), hdrawn]
      exact h.finish (h.writeV (h.setFb hR _) _ _)

/-- A cycle keeps states in agreement that look alike to every instruction. -/
theorem step_agreement (h : ∀ i, Agreement R Q i) (hR : R s s') : BothNext Q (step s) (step s') := by
  have hpc := (h .ret).pc hR
  have hword : s'.wordAtPc = s.wordAtPc := by
    simp only [State.wordAtPc, State.byteAt, hpc, (h .ret).mem hR]
  have hadv : R (s.setPc (s.pc + 2#16)) (s'.setPc (s'.pc + 2#16)) := hpc ▸ (h .ret).setPc hR _
  obtain ⟨hgt, hstep⟩ | ⟨hle, ⟨e, hd⟩, hstep⟩ | ⟨hle, i, hd, hstep⟩ := step_cases s
  · rw [hstep, step_of_gt (hpc ▸ hgt), hpc]
    exact ⟨_, _, rfl, rfl, (h .ret).setReport hR _⟩
  · rw [hstep, step_of_decode_error (hpc ▸ hle) (hword ▸ hd), hword]
    exact (h .ret).raise hadv _
  · rw [hstep, step_of_decode_ok (hpc ▸ hle) (hword ▸ hd)]
    exact (h i).exec hadv

/-- When the second next state is a function of the first, so is the second answer. -/
theorem BothNext.eq_onNext {f : State → State} {a a' : Answer} (h : BothNext (fun t t' => t' = f t) a a') :
    a' = onNext f a := by
  obtain ⟨t, _, rfl, rfl, rfl⟩ := h
  rfl

end

/-! ## The report, the timers and the count of draws: the second state is the first with one field replaced -/

/-- No instruction reads the report, and the next report replaces it. -/
theorem agreement_report (r : Option CycleResult) (i : Instr) :
    Agreement (fun s s' => s' = s.setReport r) (fun t t' => t' = t) i := by
  constructor <;> intros <;> subst_vars <;> rfl

/-- No instruction reads or writes a timer. -/
theorem agreement_timers (d e : Byte) (i : Instr) :
    Agreement (fun s s' => s' = (s.setDt d).setSt e) (fun t t' => t' = (t.setDt d).setSt e) i := by
  constructor <;> intros <;> subst_vars <;> rfl

/-- Settles O18: an earlier report is not read. -/
theorem reportIsNeverRead : Obligations.ReportIsNeverRead := by
  intro s r
  obtain ⟨t, _, hs, hs', rfl⟩ := step_agreement (agreement_report r) (s := s) rfl
  rw [hs, hs']

/-- Settles O19: a cycle carries replaced timers along. -/
theorem timersDoNotInfluenceCycles : Obligations.TimersDoNotInfluenceCycles :=
  fun s d e => (step_agreement (agreement_timers d e) (s := s) rfl).eq_onNext

/-- No instruction but random reads or writes the count of draws. -/
theorem agreement_draws (k : Nat) {i : Instr} (hi : ∀ x kk, i ≠ .random x kk) :
    Agreement (fun s s' => s' = s.setDraws k) (fun t t' => t' = t.setDraws k) i := by
  have hno : ¬ ∃ x kk, i = .random x kk := by rintro ⟨x, kk, h⟩; exact hi x kk h
  constructor
  case draws => exact fun hrandom => absurd hrandom hno
  case setDraws => exact fun hrandom => absurd hrandom hno
  all_goals
    rintro s _ rfl
    intros
    rfl

/-- Settles O25: an instruction other than random carries a replaced count along. -/
theorem onlyRandomDrawsAByte : Obligations.OnlyRandomDrawsAByte :=
  fun _ s k hi => ((agreement_draws k hi).exec (s := s) rfl).eq_onNext

/-! ## The general registers: the states agree but for what one register holds -/

/-- The states are equal once register `r` is overwritten. -/
def EqBut (r : RegNo) (s s' : State) : Prop := s.writeV r 0#8 = s'.writeV r 0#8

/-- A later write of the same register wins. -/
theorem writeV_writeV_same (s : State) (r : RegNo) (b c : Byte) : (s.writeV r b).writeV r c = s.writeV r c := by
  simp [State.writeV]

/-- Writes of different registers commute. -/
theorem writeV_comm (s : State) {x r : RegNo} (h : x ≠ r) (b c : Byte) :
    (s.writeV x b).writeV r c = (s.writeV r c).writeV x b := by
  have hne : x.toNat ≠ r.toNat := fun e => h (BitVec.eq_of_toNat_eq e)
  simp [State.writeV, Vector.set_comm _ _ hne]

/-- Every other register holds the same in both states. -/
theorem EqBut.readV {r : RegNo} {s s' : State} (h : EqBut r s s') {q : RegNo} (hq : q ≠ r) :
    s'.readV q = s.readV q := by
  have hread := congrArg (·.readV q) h
  simpa [hq] using hread.symm

/-- A write of any register keeps the agreement: of `r` itself it is overwritten, of another it is the same. -/
theorem EqBut.writeV {r : RegNo} {s s' : State} (h : EqBut r s s') (x : RegNo) (b : Byte) :
    EqBut r (s.writeV x b) (s'.writeV x b) := by
  by_cases hx : x = r
  · subst hx
    simpa [EqBut, writeV_writeV_same] using h
  · simpa [EqBut, writeV_comm _ hx] using congrArg (·.writeV x b) h

/-- An instruction that does not read `r` cannot tell the states apart. -/
theorem agreement_eqBut {r : RegNo} {i : Instr} (hr : readsV i r = false) : Agreement (EqBut r) (EqBut r) i where
  index h := (congrArg State.index h).symm
  pc h := (congrArg State.pc h).symm
  stack h := (congrArg State.stack h).symm
  fb h := (congrArg State.fb h).symm
  mem h := (congrArg State.mem h).symm
  readV h q hq := h.readV (by rintro rfl; simp [hr] at hq)
  draws _ h := (congrArg State.draws h).symm
  setIndex h a := congrArg (State.setIndex · a) h
  setPc h a := congrArg (State.setPc · a) h
  setStack h l := congrArg (State.setStack · l) h
  setFb h f := congrArg (State.setFb · f) h
  setDraws _ h k := congrArg (State.setDraws · k) h
  writeV h x b := h.writeV x b
  setReport h q := congrArg (State.setReport · q) h

/-- Settles O24: the state with `b` in the unread register agrees with the state itself but for that register. -/
theorem registersReadAreTheListed : Obligations.RegistersReadAreTheListed := by
  intro i s r b hr
  have hagree : EqBut r s (s.writeV r b) := (writeV_writeV_same s r b 0#8).symm
  obtain ⟨t, t', ht, ht', hQ⟩ := (agreement_eqBut hr).exec hagree
  rw [ht, ht']
  exact congrArg Host.Outcome.next hQ.symm

/-! ## Runs with the outside in them -/

/-- The states are equal but for DT and ST. -/
def EqButTimers (s s' : State) : Prop := (s.setDt 0#8).setSt 0#8 = (s'.setDt 0#8).setSt 0#8

/-- One cycle from states that are equal but for the timers. -/
theorem step_eqButTimers {s s' : State} (h : EqButTimers s s') : BothNext EqButTimers (step s) (step s') := by
  obtain ⟨t, ht⟩ := step_next s
  obtain ⟨t', ht'⟩ := step_next s'
  have hs := timersDoNotInfluenceCycles s 0#8 0#8
  have hs' := timersDoNotInfluenceCycles s' 0#8 0#8
  rw [h, hs', ht, ht'] at hs
  exact ⟨t, t', ht, ht', (Host.Outcome.next.inj hs).symm⟩

/-- A run with outside events, and the run of its cycles alone, from states that are equal but for the timers. -/
theorem runEvents_eqButTimers (es : List Event) {s s' : State} (h : EqButTimers s s') :
    BothNext EqButTimers (runEvents es s) (runEvents (es.filter (fun e => e == .cycle)) s') := by
  induction es generalizing s s' with
  | nil => exact ⟨s, s', rfl, rfl, h⟩
  | cons e rest ih =>
    cases e with
    | cycle =>
      obtain ⟨t, t', ht, ht', hQ⟩ := step_eqButTimers h
      simpa [runEvents, perform, ht, ht'] using ih hQ
    | timerTick => exact ih (s := s.timerTick) h
    | fbView => exact ih h

/-- Settles O20: both runs start from the same state. -/
theorem outsideEventsDoNotAffectRuns : Obligations.OutsideEventsDoNotAffectRuns :=
  fun es s => runEvents_eqButTimers es (s := s) rfl

end Sys2Proof.Machine

/-! The decoder and the encoder (30_encoding.md). A word is its four nibbles; what it decodes to, and which row of the
opcode map it selects, is read off them. -/

namespace Sys2Proof

/-! ## A word is its fields (R71, R72) -/

theorem eq_packXYN_iff {w : Word} {g x y n : Nibble} :
    w = packXYN g x y n ↔ fieldGroup w = g ∧ fieldX w = x ∧ fieldY w = y ∧ fieldN w = n := by
  constructor
  · rintro rfl; simp
  · rintro ⟨rfl, rfl, rfl, rfl⟩
    apply BitVec.eq_of_toNat_eq
    have := w.isLt
    rw [packXYN_toNat, fieldGroup_toNat, fieldX_toNat, fieldY_toNat, fieldN_toNat]; omega

theorem eq_packXK_iff {w : Word} {g x : Nibble} {kk : Byte} :
    w = packXK g x kk ↔ fieldGroup w = g ∧ fieldX w = x ∧ fieldKK w = kk := by
  constructor
  · rintro rfl; simp
  · rintro ⟨rfl, rfl, rfl⟩
    apply BitVec.eq_of_toNat_eq
    have := w.isLt
    rw [packXK_toNat, fieldGroup_toNat, fieldX_toNat, fieldKK_toNat]; omega

theorem eq_packA_iff {w : Word} {g : Nibble} {nnn : Addr12} :
    w = packA g nnn ↔ fieldGroup w = g ∧ fieldNNN w = nnn := by
  constructor
  · rintro rfl; simp
  · rintro ⟨rfl, rfl⟩
    apply BitVec.eq_of_toNat_eq
    have := w.isLt
    rw [packA_toNat, fieldGroup_toNat, fieldNNN_toNat]; omega

/-! A field of a masked word is the masked field. -/

theorem fieldGroup_and (w m : Word) : fieldGroup (w &&& m) = fieldGroup w &&& fieldGroup m :=
  BitVec.extractLsb'_and
theorem fieldX_and (w m : Word) : fieldX (w &&& m) = fieldX w &&& fieldX m := BitVec.extractLsb'_and
theorem fieldY_and (w m : Word) : fieldY (w &&& m) = fieldY w &&& fieldY m := BitVec.extractLsb'_and
theorem fieldN_and (w m : Word) : fieldN (w &&& m) = fieldN w &&& fieldN m := BitVec.extractLsb'_and

/-- The mask of groups 5 and 9 drops the trailing nibble (R78). -/
theorem and_FFF0 (w : Word) : w &&& 0xFFF0#16 = packXYN (fieldGroup w) (fieldX w) (fieldY w) 0x0#4 := by
  rw [eq_packXYN_iff, fieldGroup_and, fieldX_and, fieldY_and, fieldN_and]
  exact ⟨BitVec.and_allOnes, BitVec.and_allOnes, BitVec.and_allOnes, BitVec.and_zero⟩

/-- The mask of the shifts drops the `y` field (R79). -/
theorem and_FF0F (w : Word) : w &&& 0xFF0F#16 = packXYN (fieldGroup w) (fieldX w) 0x0#4 (fieldN w) := by
  rw [eq_packXYN_iff, fieldGroup_and, fieldX_and, fieldY_and, fieldN_and]
  exact ⟨BitVec.and_allOnes, BitVec.and_allOnes, BitVec.and_zero, BitVec.and_allOnes⟩

/-- The full mask drops nothing. -/
theorem and_FFFF (w : Word) : w &&& 0xFFFF#16 = w := BitVec.and_allOnes

/-! ## What a word decodes to -/

theorem decode_eq_ok_iff_select {w : Word} {i : Instr} : decode w = .ok i ↔ selectInstr w = some i := by
  cases h : selectInstr w <;> simp [decode, h]

theorem decode_eq_error_iff_select {w : Word} {e : DecodeError} :
    decode w = .error e ↔ selectInstr w = none ∧ .unsupportedOpcode w = e := by
  cases h : selectInstr w <;> simp [decode, h]

/-- The function nibbles that group 8 does not use. -/
theorem unused_function_iff (n : Nibble) : n ∈ [0x8#4, 0x9#4, 0xA#4, 0xB#4, 0xC#4, 0xD#4, 0xF#4] ↔
    n ∉ [0x0#4, 0x1#4, 0x2#4, 0x3#4, 0x4#4, 0x5#4, 0x6#4, 0x7#4, 0xE#4] := by
  revert n
  decide

/-- The groups that select nothing. -/
theorem unused_group_iff (g : Nibble) : g = 0xE#4 ∨ g = 0xF#4 ↔
    g ∉ [0x0#4, 0x1#4, 0x2#4, 0x3#4, 0x4#4, 0x5#4, 0x6#4, 0x7#4, 0x8#4, 0x9#4, 0xA#4, 0xB#4, 0xC#4, 0xD#4] := by
  revert g
  decide

/-- Group 8 selects no instruction exactly at the unused function nibbles (R77). -/
theorem selectGroup8_eq_none_iff (w : Word) :
    selectGroup8 w = none ↔ fieldN w ∈ [0x8#4, 0x9#4, 0xA#4, 0xB#4, 0xC#4, 0xD#4, 0xF#4] := by
  rw [unused_function_iff]
  unfold selectGroup8
  split <;> simp_all

/-- Which words select no instruction, in terms of their fields (R83). -/
theorem selectInstr_eq_none_iff (w : Word) : selectInstr w = none ↔
    (fieldGroup w = 0x0#4 ∧ w ≠ 0x00E0#16 ∧ w ≠ 0x00EE#16) ∨
    (fieldGroup w = 0x8#4 ∧ fieldN w ∈ [0x8#4, 0x9#4, 0xA#4, 0xB#4, 0xC#4, 0xD#4, 0xF#4]) ∨
    fieldGroup w = 0xE#4 ∨ fieldGroup w = 0xF#4 := by
  rw [← selectGroup8_eq_none_iff, unused_group_iff]
  unfold selectInstr
  split
  case h_1 hg =>
    simp only [hg, selectGroup0, Config.group0Match]
    split
    · simp_all
    · split <;> simp_all
  all_goals simp_all

/-- The encoding of an instruction selects that instruction, on whatever word carries its significant bits. -/
theorem select_of_and_significantBits {w : Word} {i : Instr} (h : w &&& significantBits i = encode i) :
    selectInstr w = some i := by
  cases i <;>
    simp only [significantBits, encode, and_FFFF, and_FFF0, and_FF0F, eq_packA_iff, eq_packXK_iff, eq_packXYN_iff] at h
  case clearDisplay | ret => subst h; rfl
  all_goals simp_all [selectInstr, selectGroup8]

/-- A selected instruction's canonical word is the word on the significant bits: one case per branch of the dispatch. -/
theorem and_significantBits_of_select {w : Word} {i : Instr} (h : selectInstr w = some i) :
    w &&& significantBits i = encode i := by
  simp only [selectInstr, selectGroup0, Config.group0Match, selectGroup8] at h
  split at h
  case h_1 =>
    split at h
    · cases h; subst w; rfl
    · split at h
      · cases h; subst w; rfl
      · cases h
  case h_9 hg => split at h <;> cases h <;> simp [*, significantBits, encode, and_FFFF, and_FF0F, eq_packXYN_iff]
  all_goals
    cases h <;>
      simp [*, significantBits, encode, and_FFFF, and_FFF0, eq_packA_iff, eq_packXK_iff, eq_packXYN_iff]

/-- An instruction is selected by exactly the words that carry its significant bits. -/
theorem decode_eq_ok_iff {w : Word} {i : Instr} : decode w = .ok i ↔ w &&& significantBits i = encode i :=
  decode_eq_ok_iff_select.trans ⟨and_significantBits_of_select, select_of_and_significantBits⟩

/-- The canonical word has the ignored bits 0 (R78, R79). -/
theorem encode_and_significantBits (i : Instr) : encode i &&& significantBits i = encode i := by
  cases i <;> simp [significantBits, encode, and_FFFF, and_FFF0, and_FF0F]

theorem decode_encode (i : Instr) : decode (encode i) = .ok i := decode_eq_ok_iff.mpr (encode_and_significantBits i)

/-- Settles O4: the two stored bytes make the canonical word again, which decodes to the instruction. -/
theorem decodeOfEncode : Obligations.DecodeOfEncode := by
  intro i rest
  refine ⟨decode_encode i, ?bytes⟩
  case bytes => simp [encodeBytes, decodeBytes, decode_encode]

/-- Settles O5: decoding depends on the significant bits alone. -/
theorem encodeOfDecode : Obligations.EncodeOfDecode := by
  intro w i h
  have hw := decode_eq_ok_iff.mp h
  exact ⟨hw.symm, fun w' h' => decode_eq_ok_iff.mpr (h'.trans hw)⟩

/-! ## Unsupported words (30_encoding.md section 3) -/

theorem fieldGroup_eq_iff {w : Word} {g : Nibble} : fieldGroup w = g ↔ w.toNat / 4096 = g.toNat := by
  rw [← fieldGroup_toNat, BitVec.toNat_inj]

theorem fieldN_eq_iff {w : Word} {n : Nibble} : fieldN w = n ↔ w.toNat % 16 = n.toNat := by
  rw [← fieldN_toNat, BitVec.toNat_inj]

/-- Settles O7: the unsupported words by their fields, the fields read as numbers. -/
theorem unsupportedWordsExactly : Obligations.UnsupportedWordsExactly := by
  intro w
  rw [decode_eq_error_iff_select, selectInstr_eq_none_iff]
  simp [fieldGroup_eq_iff, fieldN_eq_iff]

/-- Settles O8: either exactly matched word is matched by every alternative. -/
theorem exactGroupZeroIsTheNarrowest : Obligations.ExactGroupZeroIsTheNarrowest := by
  intro m w i h
  simp only [selectGroup0] at h
  split at h
  · subst w; cases h
    cases m <;> rfl
  · split at h
    · subst w; cases h
      cases m <;> rfl
    · cases h

/-- Settles O9: the ten words are decoded. -/
theorem wordsDecodeAsWritten : Obligations.WordsDecodeAsWritten := by
  unfold Obligations.WordsDecodeAsWritten
  decide

/-! ## The opcode map (R75, R81) -/

/-- No word selects two rows: where both masks look, the patterns differ. -/
theorem opcodeMap_disjoint : ∀ r ∈ opcodeMap, ∀ q ∈ opcodeMap,
    r.pattern &&& q.mask = q.pattern &&& r.mask → r = q := by decide

/-- A row that matches part of group 0 matches one of its two words. -/
theorem opcodeMap_group0 : ∀ r ∈ opcodeMap, fieldGroup r.pattern = 0x0#4 →
    r.mask = 0xFFFF#16 ∧ (r.pattern = 0x00E0#16 ∨ r.pattern = 0x00EE#16) := by decide

/-- A row of group 8 looks at the function nibble, and its own is a used one. -/
theorem opcodeMap_group8 : ∀ r ∈ opcodeMap, fieldGroup r.pattern = 0x8#4 → fieldN r.mask = 0xF#4 ∧
    fieldN r.pattern ∉ [0x8#4, 0x9#4, 0xA#4, 0xB#4, 0xC#4, 0xD#4, 0xF#4] := by decide

/-- Every row looks at the whole group, and no row is of group E or F. -/
theorem opcodeMap_group : ∀ r ∈ opcodeMap, fieldGroup r.mask = 0xF#4 ∧ fieldGroup r.pattern ≠ 0xE#4 ∧
    fieldGroup r.pattern ≠ 0xF#4 := by decide

theorem OpcodeRow.selects_iff {r : OpcodeRow} {w : Word} : r.selects w = true ↔ w &&& r.mask = r.pattern := by
  simp [OpcodeRow.selects]

/-- The row that selects a word is one. -/
theorem row_unique {w : Word} {r q : OpcodeRow} (hr : r ∈ opcodeMap) (hq : q ∈ opcodeMap)
    (hrw : r.selects w = true) (hqw : q.selects w = true) : r = q := by
  rw [OpcodeRow.selects_iff] at hrw hqw
  apply opcodeMap_disjoint r hr q hq
  rw [← hrw, ← hqw, BitVec.and_assoc, BitVec.and_assoc, BitVec.and_comm r.mask]

/-- No row selects an unsupported word. -/
theorem not_selects_of_select_none {w : Word} (h : selectInstr w = none) {r : OpcodeRow} (hr : r ∈ opcodeMap) :
    ¬ r.selects w = true := by
  intro hw
  rw [OpcodeRow.selects_iff] at hw
  obtain ⟨hmask, hE, hF⟩ := opcodeMap_group r hr
  have hgroup : fieldGroup r.pattern = fieldGroup w := by
    rw [← hw, fieldGroup_and, hmask]; exact BitVec.and_allOnes
  obtain ⟨hg, h0, h1⟩ | ⟨hg, hn⟩ | hg | hg := (selectInstr_eq_none_iff w).mp h
  · obtain ⟨hfull, hpattern⟩ := opcodeMap_group0 r hr (hgroup.trans hg)
    rw [hfull, and_FFFF] at hw
    rw [← hw] at hpattern
    exact hpattern.elim h0 h1
  · obtain ⟨hfull, hused⟩ := opcodeMap_group8 r hr (hgroup.trans hg)
    rw [← hw, fieldN_and, hfull] at hused
    exact hused (by rwa [show fieldN w &&& 0xF#4 = fieldN w from BitVec.and_allOnes])
  · exact hE (hgroup.trans hg)
  · exact hF (hgroup.trans hg)

/-- The bits of an instruction's word that its row of the opcode map looks at. -/
def rowMask : Instr → Word
  | .clearDisplay | .ret => 0xFFFF#16
  | .loadReg _ _ | .orReg _ _ | .andReg _ _ | .xorReg _ _ | .addReg _ _ | .subReg _ _ | .shiftRight _
  | .subnReg _ _ | .shiftLeft _ => 0xF00F#16
  | .jump _ | .call _ | .skipEqImm _ _ | .skipNeqImm _ _ | .skipEqReg _ _ | .loadImm _ _ | .addImm _ _
  | .skipNeqReg _ _ | .loadIndex _ | .jumpOffset _ | .random _ _ | .draw _ _ _ => 0xF000#16

/-- The row of an instruction. -/
def rowOf (i : Instr) : OpcodeRow := ⟨i.mnemonic, rowMask i, encode i &&& rowMask i⟩

/-- A row's mask without function nibble looks at the group alone. -/
theorem and_F000 (w : Word) : w &&& 0xF000#16 = packXYN (fieldGroup w) 0x0#4 0x0#4 0x0#4 := by
  rw [eq_packXYN_iff, fieldGroup_and, fieldX_and, fieldY_and, fieldN_and]
  exact ⟨BitVec.and_allOnes, BitVec.and_zero, BitVec.and_zero, BitVec.and_zero⟩

/-- A row's mask in group 8 looks at the group and the function nibble. -/
theorem and_F00F (w : Word) : w &&& 0xF00F#16 = packXYN (fieldGroup w) 0x0#4 0x0#4 (fieldN w) := by
  rw [eq_packXYN_iff, fieldGroup_and, fieldX_and, fieldY_and, fieldN_and]
  exact ⟨BitVec.and_allOnes, BitVec.and_zero, BitVec.and_zero, BitVec.and_allOnes⟩

theorem rowOf_mem_opcodeMap (i : Instr) : rowOf i ∈ opcodeMap := by
  cases i <;>
    simp only [rowOf, rowMask, Instr.mnemonic, encode, and_F000, and_F00F, fieldGroup_packA, fieldGroup_packXK,
      fieldGroup_packXYN, fieldN_packXYN] <;>
    decide

/-- Decoding looks at all that the rows look at. -/
theorem significantBits_and_rowMask (i : Instr) : significantBits i &&& rowMask i = rowMask i := by
  cases i <;> simp only [significantBits, rowMask, -BitVec.reduceAnd] <;> rfl

/-- An instruction's row selects every word that decodes to it. -/
theorem rowOf_selects {w : Word} {i : Instr} (h : decode w = .ok i) : (rowOf i).selects w = true := by
  rw [OpcodeRow.selects_iff]
  simp only [rowOf]
  rw [← decode_eq_ok_iff.mp h, BitVec.and_assoc, significantBits_and_rowMask]

/-- Settles O6: the row of the decoded instruction selects the word, no second row does, and none selects an
unsupported word. -/
theorem decodeAgreesWithOpcodeMap : Obligations.DecodeAgreesWithOpcodeMap := by
  intro w
  cases hd : decode w with
  | ok i =>
    have honly : ∀ r ∈ opcodeMap, r.selects w = (r == rowOf i) := by
      intro r hr
      rw [Bool.eq_iff_iff, beq_iff_eq]
      refine ⟨fun hrw => row_unique hr (rowOf_mem_opcodeMap i) hrw (rowOf_selects hd), ?_⟩
      rintro rfl
      exact rowOf_selects hd
    have hcount : opcodeMap.count (rowOf i) = 1 :=
      List.count_eq_one_of_mem (by decide) (rowOf_mem_opcodeMap i)
    refine ⟨rowOf i, ?_, rfl⟩
    rw [List.filter_congr honly, List.filter_beq, hcount]
    rfl
  | error e =>
    obtain ⟨hnone, rfl⟩ := decode_eq_error_iff_select.mp hd
    exact ⟨rfl, List.filter_eq_nil_iff.mpr fun r hr => not_selects_of_select_none hnone hr⟩

end Sys2Proof

/-! Call, skips and jump-offset (41_control_transfer.md), and random (42_load_and_alu.md section 12). -/

namespace Sys2Proof.Machine

/-- A transfer that keeps the stack: PC replaced, Ok reported. -/
theorem transferred_setPc (s : State) (target : Addr) :
    Transferred target s.stack s ((s.setPc target).setReport (some .ok)) :=
  transferred_setStack_setPc s target s.stack

/-- Settles O38: the pushed PC lies above the older entries. -/
theorem callPushesReturnAddress : Obligations.CallPushesReturnAddress := by
  intro nnn s h
  refine ⟨_, exec_call_of_lt nnn h, zextAddress_toNat nnn, rfl, ?newest, ?older, transferred_setStack_setPc s _ _⟩
  case newest =>
    have hcell := s.stackCell_push s.pc s.sp
    rwa [if_neg (lt_irrefl _), if_pos rfl] at hcell
  case older =>
    intro i hi
    have hcell := s.stackCell_push s.pc i
    rwa [if_pos hi] at hcell

/-- Settles O39: a push at full depth raises. -/
theorem callAtFullDepthOverflows : Obligations.CallAtFullDepthOverflows :=
  fun nnn _ h => exec_call_of_le nnn h.ge

/-- Settles O41: the newest entry of the stack that a call left is the PC the call started from. -/
theorem returnUndoesCall : Obligations.ReturnUndoesCall := by
  intro nnn s h
  exact ⟨_, exec_call_of_lt nnn h, fun u hu => exec_ret_of_cons hu⟩

/-- A skip completes as a transfer to the next word but one, or to the next. -/
theorem skipIf_transferred (c : Bool) (s : State) :
    ∃ t, skipIf c s = .next t ∧ Transferred (if c then s.pc + 2#16 else s.pc) s.stack s t :=
  ⟨_, skipIf_eq c s, transferred_setPc s _⟩

/-- A skip on equality, the comparison made on numbers. -/
theorem skipIf_beq_transferred (a b : Byte) (s : State) : ∃ t, skipIf (a == b) s = .next t ∧
    Transferred (if a.toNat = b.toNat then s.pc + 2#16 else s.pc) s.stack s t := by
  simpa [BitVec.toNat_inj] using skipIf_transferred (a == b) s

/-- A skip on inequality, the comparison made on numbers. -/
theorem skipIf_bne_transferred (a b : Byte) (s : State) : ∃ t, skipIf (a != b) s = .next t ∧
    Transferred (if a.toNat = b.toNat then s.pc else s.pc + 2#16) s.stack s t := by
  simpa [BitVec.toNat_inj, ite_not] using skipIf_transferred (a != b) s

/-- Settles O42: two skips on the comparison with the immediate. -/
theorem skipImmResults : Obligations.SkipImmResults :=
  fun x kk s => ⟨skipIf_beq_transferred (s.readV x) kk s, skipIf_bne_transferred (s.readV x) kk s⟩

/-- Settles O43: two skips on the comparison of the registers. -/
theorem skipRegResults : Obligations.SkipRegResults :=
  fun x y s => ⟨skipIf_beq_transferred (s.readV x) (s.readV y) s, skipIf_bne_transferred (s.readV x) (s.readV y) s⟩

/-- Settles O44: the sum fits PC whole. -/
theorem jumpOffsetInRange : Obligations.JumpOffsetInRange := by
  intro nnn s h
  exact ⟨_, exec_jumpOffset_of_le h, jumpOffset_target_toNat h, transferred_setPc s _⟩

/-- Settles O45: the sum fails the range check. -/
theorem jumpOffsetOutOfRange : Obligations.JumpOffsetOutOfRange :=
  fun _ _ h => exec_jumpOffset_of_gt h

/-- Settles O36: after the draw it is a register write of the masked byte. -/
theorem randomResult : Obligations.RandomResult := by
  intro x kk s
  obtain ⟨hdest, hregs, houtside, -, hreport⟩ :=
    wroteReg_writeV (s.setDraws (s.draws + 1)) x (Config.randomByte s.draws &&& kk)
  refine ⟨_, exec_random x kk s, hdest, ?masked, rfl, hregs, houtside, hreport⟩
  case masked =>
    rw [hdest, BitVec.and_assoc, BitVec.and_not_self]
    exact BitVec.and_zero

end Sys2Proof.Machine

/-! draw (43_display.md section 2). What the sprite loop leaves is stated on the state's own registers, index and
memory; drawing twice follows from the result of drawing once. -/

namespace Sys2Proof.Machine

/-- Bit `col` of sprite row `row`: the sprite begins at I (R171). -/
abbrev State.spritePixel (s : State) (row col : Nat) : Bool := spriteBit (s.byteAt (s.index.toNat + row)) col

/-- The cell of a sprite pixel when the sprite stands at (V[x], V[y]) (R172). -/
abbrev State.spriteCell (s : State) (x y : RegNo) (row col : Nat) : Nat :=
  pixelCell (s.readV x).toNat (s.readV y).toNat row col

@[simp] theorem State.spriteBytes_length (s : State) (n : Nat) : (s.spriteBytes n).length = n := by
  simp [State.spriteBytes]

/-- A whole draw XORs each sprite pixel into its cell, changes no other cell, and collides exactly where a sprite bit 1
meets a cell that was 1. -/
theorem State.drawn_spec (s : State) (x y : RegNo) (n : Nibble) :
    (∀ row col, row < n.toNat → col < 8 → pixelAt (s.drawn x y n).fb (s.spriteCell x y row col) =
        (pixelAt s.fb (s.spriteCell x y row col) ^^ s.spritePixel row col)) ∧
      (∀ k, (∀ row col, row < n.toNat → col < 8 → k ≠ s.spriteCell x y row col) →
        pixelAt (s.drawn x y n).fb k = pixelAt s.fb k) ∧
      ((s.drawn x y n).collision = true ↔ ∃ row col, row < n.toNat ∧ col < 8 ∧
        s.spritePixel row col = true ∧ pixelAt s.fb (s.spriteCell x y row col) = true) := by
  have hn := n.isLt
  obtain ⟨hit, miss, collision⟩ := plotRows_spec (s.readV x).toNat (s.readV y).toNat (s.spriteBytes n.toNat) 0
    ⟨s.fb, false⟩ (by rw [State.spriteBytes_length]; omega)
  simp only [State.spriteBytes_length, State.spriteBytes_getElem?, Nat.zero_add] at hit miss collision
  refine ⟨fun row col hrow hcol => hit row _ col ⟨hrow, rfl⟩ hcol, miss, collision.trans ⟨?_, ?_⟩⟩
  · rintro (h | ⟨row, _, col, ⟨hrow, rfl⟩, hcol, hbit, hcell⟩)
    · cases h
    · exact ⟨row, col, hrow, hcol, hbit, hcell⟩
  · rintro ⟨row, col, hrow, hcol, hbit, hcell⟩
    exact .inr ⟨row, _, col, ⟨hrow, rfl⟩, hcol, hbit, hcell⟩

theorem flagByte_eq_one_iff (b : Bool) : flagByte b = 1#8 ↔ b = true := by cases b <;> decide
theorem flagByte_eq_zero_or_one (b : Bool) : flagByte b = 0#8 ∨ flagByte b = 1#8 := by cases b <;> decide

/-- Settles O48: the sprite loop's result in the framebuffer, its collision in VF. -/
theorem drawResult : Obligations.DrawResult := by
  intro x y n s h
  obtain ⟨hit, miss, collision⟩ := s.drawn_spec x y n
  have hVF : ((s.setFb (s.drawn x y n).fb).writeFlag (s.drawn x y n).collision).readV 15#4 =
      flagByte (s.drawn x y n).collision := State.readV_writeV_same _ _ _
  refine ⟨_, exec_draw_of_inside x y (by omega), hit, miss, ?isFlag, ?flag, ?regs, rfl, rfl, rfl,
    ⟨rfl, rfl, rfl⟩, fun _ => rfl, rfl⟩
  case isFlag =>
    rw [State.readV_setReport, hVF]
    exact flagByte_eq_zero_or_one _
  case flag =>
    rw [State.readV_setReport, hVF, flagByte_eq_one_iff]
    exact collision
  case regs =>
    intro r hr
    exact State.readV_writeV_of_ne _ hr _

/-- Settles O49: the sprite fails the range check. -/
theorem drawOutsideMemoryRaises : Obligations.DrawOutsideMemoryRaises :=
  fun x y _ _ hn h => exec_draw_of_outside x y ⟨hn, h⟩

/-- Framebuffers with the same cells are equal. -/
theorem framebuffer_ext {f g : Framebuffer} (h : ∀ k, pixelAt f k = pixelAt g k) : f = g :=
  BitVec.eq_of_getLsbD_eq fun k _ => h k

/-- Settles O50: the second draw has the first one's sprite and cells, and XOR undoes itself. -/
theorem drawTwiceRestores : Obligations.DrawTwiceRestores := by
  intro x y n s h hx hy
  obtain ⟨t, ht, hit, miss, -, -, hregs, hindex, -, -, -, hmem, -⟩ := drawResult x y n s h
  obtain ⟨u, hu, hit', miss', -, hflag, -⟩ := drawResult x y n t (by rwa [hindex])
  simp only [hregs x hx, hregs y hy, hindex, hmem _] at hit' miss' hflag
  refine ⟨t, u, ht, hu, framebuffer_ext fun k => ?cell, hflag.trans ?flag⟩
  case cell =>
    by_cases hk : ∃ row col, row < n.toNat ∧ col < 8 ∧
        k = ((s.readV y).toNat + row) % 32 * 64 + ((s.readV x).toNat + col) % 64
    · obtain ⟨row, col, hrow, hcol, rfl⟩ := hk
      rw [hit' row col hrow hcol, hit row col hrow hcol, Bool.xor_assoc, Bool.xor_self, Bool.xor_false]
    · have hother : ∀ row col, row < n.toNat → col < 8 →
          k ≠ ((s.readV y).toNat + row) % 32 * 64 + ((s.readV x).toNat + col) % 64 :=
        fun row col hrow hcol e => hk ⟨row, col, hrow, hcol, e⟩
      rw [miss' k hother, miss k hother]
  case flag =>
    refine exists_congr fun row => exists_congr fun col => and_congr_right fun hrow => and_congr_right fun hcol =>
      and_congr_right fun hbit => ?_
    rw [hit row col hrow hcol, hbit, Bool.xor_true, Bool.not_eq_true']

end Sys2Proof.Machine

/-! What the outside does between cycles: LOAD and the start of a run (70_reset_and_hazards.md), direct access
(10_state.md section 7), timer ticks and framebuffer views (60_exceptions.md sections 7 and 8). -/

namespace Sys2Proof.Machine

/-! ## LOAD -/

/-- Copying bytes leaves every address outside their range alone. -/
theorem Memory.read_writeBytes_outside {k : Nat} : ∀ (bytes : List Byte) (m : Memory) (a : Nat),
    k < a ∨ a + bytes.length ≤ k → Memory.read (Memory.writeBytes m a bytes) k = Memory.read m k
  | [], _, _, _ => rfl
  | b :: rest, m, a, h => by
    simp only [List.length_cons] at h
    have hne : k ≠ a := by omega
    rw [Memory.writeBytes, Memory.read_writeBytes_outside rest _ (a + 1) (by omega), Memory.read_write_ne hne]

/-- Byte `j` of bytes that fit reads back at the `j`-th address from the first. -/
theorem Memory.read_writeBytes_inside {b : Byte} : ∀ (bytes : List Byte) {m : Memory} {a j : Nat},
    a + bytes.length ≤ Config.memSize → Memory.wf m = true → bytes[j]? = some b →
      Memory.read (Memory.writeBytes m a bytes) (a + j) = b
  | c :: rest, m, a, 0, hfit, hm, hj => by
    cases hj
    rw [Memory.writeBytes, Memory.read_writeBytes_outside rest _ (a + 1) (by omega)]
    exact Memory.read_write_same b hm
  | c :: rest, m, a, j + 1, hfit, hm, hj => by
    simp only [List.length_cons] at hfit
    rw [Memory.writeBytes, show a + (j + 1) = a + 1 + j by omega]
    exact Memory.read_writeBytes_inside rest (by omega) (Memory.wf_write (by omega) c hm) hj

theorem load_of_fits (s : State) {bytes : List Byte} {offset : Nat} (h : offset + bytes.length ≤ Config.memSize) :
    s.load bytes offset = .ok (s.setMem (Memory.writeBytes s.mem offset bytes)) :=
  if_neg (Nat.not_lt.mpr h)

theorem load_of_not_fits (s : State) {bytes : List Byte} {offset : Nat}
    (h : ¬ offset + bytes.length ≤ Config.memSize) :
    s.load bytes offset = .error (.outOfBounds (offset + bytes.length - 1)) :=
  if_pos (Nat.lt_of_not_le h)

/-- Settles O51: a load that fits is a copy into memory. -/
theorem loadCopiesVerbatim : Obligations.LoadCopiesVerbatim := by
  intro s bytes offset hm
  split
  case isTrue hfit =>
    exact ⟨_, load_of_fits s hfit, Memory.wf_writeBytes bytes hfit hm, rfl,
      fun j b hj => Memory.read_writeBytes_inside bytes hfit hm hj,
      fun a ha => Memory.read_writeBytes_outside bytes s.mem offset ha⟩
  case isFalse hfit => exact ⟨_, load_of_not_fits s hfit⟩

/-- Settles O52: the image is loaded verbatim into the reset state, so its first two bytes are the word at PC. -/
theorem bootPlacesTheImage : Obligations.BootPlacesTheImage := by
  intro hi lo rest hlen
  have hfit : 0x200 + (hi :: lo :: rest).length ≤ 4096 := by simp only [List.length_cons]; omega
  have hload := loadCopiesVerbatim State.reset (hi :: lo :: rest) 0x200 Memory.wf_reset
  rw [if_pos hfit] at hload
  obtain ⟨t, hboot, hwf, hframe, hbytes, -⟩ := hload
  have hpc : t.pc = 0x200#16 := by rw [hframe]; rfl
  have hword : t.wordAtPc = wordOfBytes hi lo := by
    rw [State.wordAtPc, hpc]
    exact congrArg₂ wordOfBytes (hbytes 0 hi rfl) (hbytes 1 lo rfl)
  refine ⟨t, hboot, ?inv, hpc, hbytes, ?fetch⟩
  case inv =>
    rw [hframe]
    exact ⟨hwf, resetMeetsInvariant.2⟩
  case fetch =>
    rw [fetch_of_le (by rw [hpc]; decide), hword, hpc]
    rfl

/-! ## Direct access -/

theorem accessWriteMem_eq (s : State) (k : Nat) (b : Byte) : s.accessWriteMem k b =
    if k ≤ 0xFFF then .ok (s.setMem (Memory.write s.mem k b)) else .error (.outOfBounds k) := by
  simp only [State.accessWriteMem, Config.memSize, Nat.lt_succ_iff]

theorem accessWriteV_eq (s : State) (k : Nat) (b : Byte) : s.accessWriteV k b =
    if k ≤ 15 then .ok (s.writeV (BitVec.ofNat 4 k) b) else .error (.outOfBounds k) := by
  simp only [State.accessWriteV, Config.nregs, Nat.lt_succ_iff]

theorem accessReadV_eq (s : State) (k : Nat) : s.accessReadV k =
    if k ≤ 15 then .ok (s.readV (BitVec.ofNat 4 k)) else .error (.outOfBounds k) := by
  simp only [State.accessReadV, Config.nregs, Nat.lt_succ_iff]

/-- Different indices name different registers. -/
theorem selector_ne {j k : Nat} (hj : j ≤ 15) (hk : k ≤ 15) (h : j ≠ k) :
    BitVec.ofNat 4 j ≠ BitVec.ofNat 4 k := by
  intro e
  have htoNat := congrArg BitVec.toNat e
  simp only [BitVec.toNat_ofNat] at htoNat
  omega

/-- The framebuffer that a pixel access writes. -/
def writtenFb (f : Framebuffer) (k val : Nat) : Framebuffer :=
  if (pixelAt f k).toNat = val then f else togglePixel f k

/-- The written cell holds the value, and every other cell is as before. -/
theorem pixelAt_writtenFb (f : Framebuffer) {k val : Nat} (hk : k ≤ 2047) (hval : val ≤ 1) (j : Nat) :
    pixelAt (writtenFb f k val) j = if j = k then decide (val = 1) else pixelAt f j := by
  have hval' : val = 0 ∨ val = 1 := by omega
  unfold writtenFb
  by_cases hj : j = k
  · subst hj
    cases hp : pixelAt f j <;> rcases hval' with rfl | rfl <;>
      simp [hp, pixelAt_togglePixel f j j (by omega)]
  · split <;> simp [hj, pixelAt_togglePixel f k j (by omega)]

theorem accessWritePixel_eq (s : State) (k val : Nat) : s.accessWritePixel k val =
    if k ≤ 2047 ∧ val ≤ 1 then .ok (s.setFb (writtenFb s.fb k val)) else .error (.outOfBounds k) := by
  simp only [State.accessWritePixel, Config.fbW, Config.fbH, writtenFb, ← Nat.lt_succ_iff]

theorem accessReadPixel_of_le (s : State) {k : Nat} (hk : k ≤ 2047) :
    s.accessReadPixel k = .ok (pixelAt s.fb k).toNat :=
  if_pos (Nat.lt_succ_of_le hk)

/-- Settles O53: one write of memory, of a register, of a pixel, each with the law of what it leaves. -/
theorem accessIsBoundsChecked : Obligations.AccessIsBoundsChecked := by
  intro s k b v hm
  refine ⟨?memory, ?register, ?pixel⟩
  case memory =>
    rw [accessWriteMem_eq, State.memRead1_eq]
    split
    case isTrue hk =>
      refine ⟨_, rfl, ?_, Memory.wf_write (Nat.lt_succ_of_le hk) b hm, rfl, fun a ha => Memory.read_write_ne ha b _⟩
      rw [State.memRead1_eq, if_pos hk]
      exact congrArg Except.ok (Memory.read_write_same b hm)
    case isFalse hk => exact ⟨rfl, rfl⟩
  case register =>
    simp only [accessWriteV_eq, accessReadV_eq]
    split
    case isTrue hk =>
      refine ⟨_, rfl, by rw [State.readV_writeV_same], ?_, fun j hj hne => ?_⟩
      · simp [SameOutsideRegs, SamePixels, SameMemory]
      · rw [State.readV_writeV_of_ne _ (selector_ne hj hk hne)]
    case isFalse hk => exact ⟨rfl, rfl⟩
  case pixel =>
    rw [accessWritePixel_eq]
    split
    case isTrue h =>
      obtain ⟨hk, hv⟩ := h
      refine ⟨_, rfl, ?_, rfl, fun j hj => ?_⟩
      · rw [accessReadPixel_of_le _ hk, State.setFb_fb, pixelAt_writtenFb _ hk hv, if_pos rfl]
        interval_cases v <;> rfl
      · rw [State.setFb_fb, pixelAt_writtenFb _ hk hv, if_neg hj]
    case isFalse h => rfl

/-! ## Timer ticks and framebuffer views -/

/-- A timer that is not 0 goes down by 1 (R202). -/
theorem tickTimer_toNat {b : Byte} (h : b ≠ 0#8) : (tickTimer b).toNat = b.toNat - 1 := by
  have hpos : 1 ≤ b.toNat := Nat.pos_of_ne_zero fun e => h (BitVec.eq_of_toNat_eq e)
  have hle : 1#8 ≤ b := BitVec.le_def.mpr hpos
  rw [tickTimer, if_neg h, BitVec.toNat_sub_of_le hle]
  rfl

/-- Settles O54: both timers tick alike. -/
theorem timerTickDecrements : Obligations.TimerTickDecrements :=
  fun _ => ⟨fun h => tickTimer_toNat h, fun h => tickTimer_toNat h, rfl⟩

/-- Row `cy` of the framebuffer view. -/
theorem fbView_row (s : State) {cy : Nat} (h : cy < 32) : s.fbView[cy]? =
    some ((List.range Config.fbW).map fun cx => (pixelAt s.fb (cy * Config.fbW + cx)).toNat) := by
  simp [State.fbView, h]

/-- Settles O55, row by row. -/
theorem framebufferViewIsTheGrid : Obligations.FramebufferViewIsTheGrid := by
  intro s
  refine ⟨by simp [State.fbView], fun cy hcy => ⟨_, fbView_row s hcy, by simp, fun cx hcx => ?cell⟩⟩
  case cell => simp [hcx, Bool.toNat, Bool.cond_eq_ite]

end Sys2Proof.Machine
